-- ==== Sys2Proof/Word.lean ====
section
/-! DEFINITION. The value types of the encoder: every value is an unsigned bit string of a stated width (R7). -/

namespace Sys2Proof

/-- One byte of an input sequence or of the register. -/
abbrev Byte := BitVec 8

/-- The 7-bit CRC value (R13). -/
abbrev Crc := BitVec 7

/-- The 120 bits of a register before the trailer (R5, R9). -/
abbrev Payload := BitVec 120

/-- The 128-bit CID or CSD register (R46). -/
abbrev Register := BitVec 128

/-- A two-bit fault code or response status (R18, R62). -/
abbrev Code := BitVec 2

/-- A bit string handed to the encoder by the host, with its length: bit 0 is the least significant (R50). -/
structure CmdWord where
  len  : Nat
  bits : BitVec len
deriving DecidableEq, Repr

end Sys2Proof
end

