-- ==== Sys2Proof/Config.lean ====
section
/-! DEFINITION. The fixed sizes (R5), the decided parameters (R6, 92_eei_decisions.md D1, D11, D19), and the one parameter
the spec leaves OPEN, `CSD_WIDTHS` (D3). -/

namespace Sys2Proof.Config

/-- `PAYLOAD_BITS` (R5). -/
@[simp] abbrev payloadBits : Nat := 120

/-- `PAYLOAD_BYTES` (R5). -/
@[simp] abbrev payloadBytes : Nat := 15

/-- `REG_BYTES` (R5). -/
@[simp] abbrev regBytes : Nat := 16

/-- `CID_WIDTHS`, in the order MID, OID, PNM, PRV, PSN, Reserved, MDT (R5, R47). -/
def cidWidths : List Nat := [8, 16, 40, 8, 32, 4, 12]

/-- `N_CSD_FIELDS` (R5). -/
@[simp] abbrev nCsdFields : Nat := 28

/-- `WMAX`, the widest field (R6). -/
@[simp] abbrev wMax : Nat := 40

/-- `TRAILER_MAXLEN`, the longest byte sequence of one CRC.TRAILER command word (R6). -/
@[simp] abbrev trailerMaxLen : Nat := 65535

/-- `CRC_POLY`, the generator x^7 + x^3 + 1 without its x^7 term (R6). -/
def crcPoly : Crc := 0x09#7

/-- `CRC_INIT` (R6). -/
def crcInit : Crc := 0x00#7

/-- The constraint on `CSD_WIDTHS`: 28 entries, each in 1..40, with the sum 120 (R6). -/
def csdWidthsOk (ws : List Nat) : Bool :=
  ws.length == nCsdFields && ws.all (fun w => decide (1 ≤ w) && decide (w ≤ wMax)) && ws.sum == payloadBits

/-- The lists `CSD_WIDTHS` may be. -/
abbrev CsdWidths := { ws : List Nat // csdWidthsOk ws = true }

/-- OPEN (D3; DESIGN CHOICE, log 3): the `CSD_WIDTHS` of the instance that reset leaves. It has no body, so nothing is
known of it but the constraint of R6; the binder only supplies that the type is inhabited. -/
opaque csdWidths [Inhabited CsdWidths] : CsdWidths

/-- The same list as plain data. The list given here shows that the type is inhabited and is no layout of any card. -/
def instanceWidths : List Nat :=
  (@csdWidths ⟨⟨List.replicate 26 4 ++ [8, 8], by decide⟩⟩).1

theorem instanceWidths_ok : csdWidthsOk instanceWidths = true :=
  (@csdWidths ⟨⟨List.replicate 26 4 ++ [8, 8], by decide⟩⟩).2

end Sys2Proof.Config
end

