-- ==== Sys2Proof/Syntax.lean ====
section
/-! DEFINITION. The operations: one constructor per row of spec/opcode_table.json (R57), the reserved codes among them (R60). -/

namespace Sys2Proof

/-- The operands of ENC.CID, unbounded integers and a byte list as R106 takes them (log 6). -/
structure CidOperands where
  mid : Int
  oid : Int
  pnm : List Byte
  prv : Int
  psn : Int
  rsv : Int
  mdt : Int
deriving DecidableEq, Repr

/-- One width-tagged field of ENC.CSD: the width the caller claims and the value, right-aligned (R56, R108). -/
structure CsdField where
  len : BitVec 6
  val : BitVec 40
deriving DecidableEq, Repr

inductive Instr where
  /-- CRC.CLR (R75) -/
  | crcClr
  /-- CRC.BIT b (R76) -/
  | crcBit (b : Bool)
  /-- CRC.BYTE d (R77) -/
  | crcByte (d : Byte)
  /-- CRC.TRL (R78) -/
  | crcTrl
  /-- PK.CLR (R92) -/
  | pkClr
  /-- PK.PUSH w, v (R93) -/
  | pkPush (w : BitVec 6) (v : BitVec 40)
  /-- PK.SEAL (R95) -/
  | pkSeal
  /-- ENC.CID MID, OID, PNM, PRV, PSN, RSV, MDT (R105) -/
  | encCid (o : CidOperands)
  /-- ENC.CSD (len_0, val_0), ..., (len_27, val_27) (R108) -/
  | encCsd (fields : List CsdField)
  /-- CRC.TRAILER n, B[0..n-1] (R80); n is the length of the list -/
  | crcTrailer (bytes : List Byte)
  /-- the reserved op code 0x7 (R60) -/
  | reserved7
  /-- the reserved op code 0xB (R60) -/
  | reservedB
  /-- the reserved op code 0xC (R60) -/
  | reservedC
  /-- the reserved op code 0xD (R60) -/
  | reservedD
  /-- the reserved op code 0xE (R60) -/
  | reservedE
  /-- the reserved op code 0xF (R60) -/
  | reservedF
deriving DecidableEq, Repr

/-- The command-word formats (R50); `none` below stands for the four bits of a reserved code. -/
inductive Format where
  | Z | B1 | B8 | F | CID | CSD | S
deriving DecidableEq, Repr

/-- Why a bit string is no command word (R50; log 4). -/
inductive Reject where
  /-- fewer than the four bits of an operation code -/
  | noOpCode
  /-- not the length the format of its operation code gives -/
  | wrongLength
deriving DecidableEq, Repr

/-- What the decoder answers. -/
inductive Decoded where
  | ok (i : Instr)
  | rejected (why : Reject)
deriving DecidableEq, Repr

end Sys2Proof
end

