-- ==== Sys2Proof/WellFormed.lean ====
section
/-! DEFINITION. The operations a command word can carry: the operand widths of the formats (R55, R56, R58). -/

namespace Sys2Proof

/-- `0 <= x < 2^w` for an operand field of `w` bits. -/
def fitsBits (w : Nat) (x : Int) : Bool :=
  decide (0 ≤ x) && decide (x < 2 ^ w)

/-- Format CID carries every operand at its declared width, and PNM as exactly five bytes (R55). -/
def CidOperands.wellFormed (o : CidOperands) : Bool :=
  fitsBits 8 o.mid && fitsBits 16 o.oid && o.pnm.length == 5 && fitsBits 8 o.prv && fitsBits 32 o.psn
    && fitsBits 3 o.rsv && fitsBits 12 o.mdt

/-- Format CSD has 28 slots (R56); format S counts its bytes in 16 bits (R58); every other format carries every operand
value of its type. -/
def Instr.wellFormed : Instr → Bool
  | .crcClr => true
  | .crcBit _ => true
  | .crcByte _ => true
  | .crcTrl => true
  | .pkClr => true
  | .pkPush _ _ => true
  | .pkSeal => true
  | .encCid o => o.wellFormed
  | .encCsd fields => fields.length == Config.nCsdFields
  | .crcTrailer bytes => decide (bytes.length ≤ Config.trailerMaxLen)
  | .reserved7 => true
  | .reservedB => true
  | .reservedC => true
  | .reservedD => true
  | .reservedE => true
  | .reservedF => true

end Sys2Proof
end

