-- ==== Sys2Proof/Decode.lean ====
section
/-! DEFINITION. Command words (30_encoding.md Part B): the operation map, the decoder, the encoder, the written form. -/

namespace Sys2Proof

/-- The format of an operation code, `none` for a reserved one (R57, R60). -/
def opFormat (op : Nat) : Option Format :=
  match op with
  | 0x0 => some .Z
  | 0x1 => some .B1
  | 0x2 => some .B8
  | 0x3 => some .Z
  | 0x4 => some .Z
  | 0x5 => some .F
  | 0x6 => some .Z
  | 0x8 => some .CID
  | 0x9 => some .CSD
  | 0xA => some .S
  | _ => none

/-- The length of a command word of a format; only format S needs its byte count `n` (R50, R58, R60). -/
def formatLength (f : Option Format) (n : Nat) : Nat :=
  match f with
  | some .Z => 4
  | some .B1 => 5
  | some .B8 => 12
  | some .F => 50
  | some .CID => 123
  | some .CSD => 1292
  | some .S => 20 + 8 * n
  | none => 4

/-- `cmd[3:0]` (R50). -/
def CmdWord.op (c : CmdWord) : Nat := (c.bits.extractLsb' 0 4).toNat

/-- `cmd[19:4]`, the byte count of format S (R58). -/
def CmdWord.count (c : CmdWord) : Nat := (c.bits.extractLsb' 4 16).toNat

/-- The length the word's own operation code (and count) calls for. -/
def CmdWord.properLength (c : CmdWord) : Nat := formatLength (opFormat c.op) c.count

/-- An operand field as an unsigned number (R59). -/
def CmdWord.field (c : CmdWord) (lo width : Nat) : Int := ((c.bits.extractLsb' lo width).toNat : Int)

/-- The five bytes of PNM, the first character in `cmd[98:91]` (R55). -/
def CmdWord.pnm (c : CmdWord) : List Byte :=
  (List.range 5).map fun j => c.bits.extractLsb' (91 - 8 * j) 8

/-- The operands of format CID (R55). -/
def CmdWord.cidOperands (c : CmdWord) : CidOperands where
  mid := c.field 115 8
  oid := c.field 99 16
  pnm := c.pnm
  prv := c.field 51 8
  psn := c.field 19 32
  rsv := c.field 16 3
  mdt := c.field 4 12

/-- Slot `i` of format CSD, its least significant bit at `b(i) = 4 + 46*(27-i)` (R56). -/
def CmdWord.csdSlot (c : CmdWord) (i : Nat) : CsdField where
  len := c.bits.extractLsb' (4 + 46 * (27 - i) + 40) 6
  val := c.bits.extractLsb' (4 + 46 * (27 - i)) 40

/-- Byte `B[j]` of format S with `n` bytes (R58). -/
def CmdWord.trailerByte (c : CmdWord) (n j : Nat) : Byte :=
  c.bits.extractLsb' (20 + 8 * (n - 1 - j)) 8

/-- The operation of a word whose length is the one its code calls for: `op` first, then the operands of its format
(R50 to R58, R60). -/
def decodeOp (c : CmdWord) : Decoded :=
  match c.op with
  | 0x0 => .ok .crcClr
  | 0x1 => .ok (.crcBit (c.bits.getLsbD 4))
  | 0x2 => .ok (.crcByte (c.bits.extractLsb' 4 8))
  | 0x3 => .ok .crcTrl
  | 0x4 => .ok .pkClr
  | 0x5 => .ok (.pkPush (c.bits.extractLsb' 44 6) (c.bits.extractLsb' 4 40))
  | 0x6 => .ok .pkSeal
  | 0x7 => .ok .reserved7
  | 0x8 => .ok (.encCid c.cidOperands)
  | 0x9 => .ok (.encCsd ((List.range Config.nCsdFields).map c.csdSlot))
  | 0xA => .ok (.crcTrailer ((List.range c.count).map (c.trailerByte c.count)))
  | 0xB => .ok .reservedB
  | 0xC => .ok .reservedC
  | 0xD => .ok .reservedD
  | 0xE => .ok .reservedE
  | 0xF => .ok .reservedF
  | _ => .rejected .noOpCode

/-- The decoder, total on every bit string: a string shorter than an operation code, or not of the length its code calls
for, is no command word and is rejected by name (R50; log 4). -/
def decode (c : CmdWord) : Decoded :=
  if c.len < 4 then .rejected .noOpCode
  else if c.len = c.properLength then decodeOp c
  else .rejected .wrongLength

/-! ### The encoder, from the same formats -/

/-- PNM as 40 bits, the first character most significant (R59). -/
def pnmBits (p : List Byte) : BitVec 40 :=
  p.foldl (fun a b => (a <<< 8) ||| b.setWidth 40) 0#40

/-- MID ‖ OID ‖ PNM ‖ PRV ‖ PSN ‖ RSV ‖ MDT ‖ op (R55). -/
def cidWord (o : CidOperands) : BitVec 123 :=
  BitVec.ofInt 8 o.mid ++ BitVec.ofInt 16 o.oid ++ pnmBits o.pnm ++ BitVec.ofInt 8 o.prv ++ BitVec.ofInt 32 o.psn
    ++ BitVec.ofInt 3 o.rsv ++ BitVec.ofInt 12 o.mdt ++ 0x8#4

/-- Slot 0 ‖ slot 1 ‖ ... as a number, each slot 46 bits (R56). -/
def slotsNat (fields : List CsdField) : Nat :=
  fields.foldl (fun a f => (a <<< 46) ||| (f.len ++ f.val).toNat) 0

/-- B[0] ‖ B[1] ‖ ... as a number (R58). -/
def bytesNat (bytes : List Byte) : Nat :=
  bytes.foldl (fun a b => (a <<< 8) ||| b.toNat) 0

/-- The command word of an operation (R51 to R58, R60). -/
def encode : Instr → CmdWord
  | .crcClr => ⟨4, 0x0#4⟩
  | .crcBit b => ⟨5, BitVec.ofBool b ++ 0x1#4⟩
  | .crcByte d => ⟨12, d ++ 0x2#4⟩
  | .crcTrl => ⟨4, 0x3#4⟩
  | .pkClr => ⟨4, 0x4#4⟩
  | .pkPush w v => ⟨50, w ++ v ++ 0x5#4⟩
  | .pkSeal => ⟨4, 0x6#4⟩
  | .encCid o => ⟨123, cidWord o⟩
  | .encCsd fields => ⟨1292, BitVec.ofNat 1288 (slotsNat fields) ++ 0x9#4⟩
  | .crcTrailer bytes =>
    ⟨20 + 8 * bytes.length,
      BitVec.ofNat (20 + 8 * bytes.length) ((bytesNat bytes <<< 20) ||| (bytes.length <<< 4) ||| 0xA)⟩
  | .reserved7 => ⟨4, 0x7#4⟩
  | .reservedB => ⟨4, 0xB#4⟩
  | .reservedC => ⟨4, 0xC#4⟩
  | .reservedD => ⟨4, 0xD#4⟩
  | .reservedE => ⟨4, 0xE#4⟩
  | .reservedF => ⟨4, 0xF#4⟩

/-! ### A row of the opcode table as a word -/

/-- The command word in the low `nbits` bits of `w`: `op`, and for format S its count, say how long it is; bits the
instruction has above `nbits` are 0, and padding bits above the instruction are dropped (log 11). -/
def frameTableWord (nbits w : Nat) : CmdWord :=
  let v := w % 2 ^ nbits
  let len := formatLength (opFormat (v % 16)) (v / 16 % 65536)
  ⟨len, BitVec.ofNat len v⟩

/-- The instruction the decoder reads from a row's word, numbered as the opcode table numbers it. -/
def decodeTableWord (nbits w : Nat) : Option Instr :=
  match decode (frameTableWord nbits w) with
  | .ok i => some i
  | .rejected _ => none

/-! ### The written form (R61) -/

/-- A number in hexadecimal, upper case, at least two digits. -/
def hexByte (b : Byte) : String :=
  String.ofList (((Nat.toDigits 16 (b.toNat / 16)) ++ (Nat.toDigits 16 (b.toNat % 16))).map Char.toUpper)

/-- Operands separated by commas (R61). -/
def commaList : List String → String
  | [] => ""
  | [x] => x
  | x :: xs => x ++ ", " ++ commaList xs

/-- The operation as R61 writes it: mnemonic, a space, operands separated by commas; numbers in decimal, PNM as a 40-bit
number, the bytes of CRC.TRAILER in hexadecimal, an item of ENC.CSD as `len:val`. -/
def Instr.written : Instr → String
  | .crcClr => "CRC.CLR"
  | .crcBit b => "CRC.BIT " ++ (if b then "1" else "0")
  | .crcByte d => "CRC.BYTE " ++ toString d.toNat
  | .crcTrl => "CRC.TRL"
  | .pkClr => "PK.CLR"
  | .pkPush w v => "PK.PUSH " ++ commaList [toString w.toNat, toString v.toNat]
  | .pkSeal => "PK.SEAL"
  | .encCid o => "ENC.CID " ++ commaList [toString o.mid, toString o.oid, toString (pnmBits o.pnm).toNat, toString o.prv,
      toString o.psn, toString o.rsv, toString o.mdt]
  | .encCsd fields => "ENC.CSD " ++ commaList (fields.map fun f => toString f.len.toNat ++ ":" ++ toString f.val.toNat)
  | .crcTrailer bytes => "CRC.TRAILER" ++ String.join (bytes.map fun b => " " ++ hexByte b)
  | .reserved7 => "op code 0x7"
  | .reservedB => "op code 0xB"
  | .reservedC => "op code 0xC"
  | .reservedD => "op code 0xD"
  | .reservedE => "op code 0xE"
  | .reservedF => "op code 0xF"

end Sys2Proof
end

