-- ==== Sys2Proof/Machine/State.lean ====
section
/-! DEFINITION. The state: the six elements of R10 and the model's own three fields, and the machine right after reset. -/

namespace Sys2Proof.Machine

/-- The data of a response (R62). -/
inductive ResponseData where
  /-- no data -/
  | nothing
  /-- the 8-bit trailer of CRC.TRL and CRC.TRAILER -/
  | trailer (t : Byte)
  /-- the 16 bytes of PK.SEAL, ENC.CID and ENC.CSD -/
  | register (bytes : List Byte)
deriving DecidableEq, Repr

/-- `respond(status, data)` (R62). -/
structure Response where
  status : Code
  data   : ResponseData
deriving DecidableEq, Repr

/-- What the host can do to the encoder: issue a command word (R12), or assert reset between operations (R140). -/
inductive HostEvent where
  | issue (c : CmdWord)
  | reset
deriving DecidableEq, Repr

/-- The first six fields are the architectural state (R10). The last three are the model's own (log 1, log 2, log 3). -/
structure State where
  /-- the CRC shift register (R13) -/
  crc       : Crc
  /-- the packer's accumulator, right-aligned (R14) -/
  acc       : Payload
  /-- how many bits of `acc` are filled (R15) -/
  fill      : BitVec 7
  /-- the output register (R16) -/
  out       : Register
  /-- `out` holds a sealed register (R17) -/
  outValid  : Bool
  /-- the sticky fault code (R18) -/
  err       : Code
  /-- MODEL: the response of the last operation -/
  response  : Option Response
  /-- MODEL: what the host has issued and the encoder has not taken yet, oldest first -/
  pending   : List HostEvent
  /-- MODEL: the instance's `CSD_WIDTHS`, a parameter no operation writes (R6, R142) -/
  csdWidths : List Nat
deriving DecidableEq, Repr

/-- No operation of the encoder stops the machine: the faults of R120 are next states. So there is no reason to fault. -/
inductive Fault where
deriving DecidableEq, Repr

inductive Refusal where
  /-- Raised by an arm of `exec` whose instruction has no meaning yet. Safe: the model stops where the hardware goes on. -/
  | notModelled (mnemonic : String)
  /-- Raised by `step` on a bit string that is no command word (R50; log 4). Safe: the spec gives such a string no meaning. -/
  | notACommandWord (why : Reject)
deriving DecidableEq, Repr

/-- The machine right after reset (R23, R140) for an instance with the given `CSD_WIDTHS`; nothing answered, nothing issued. -/
def State.resetWith (widths : List Nat) : State where
  crc := 0x00#7
  acc := 0#120
  fill := 0#7
  out := 0#128
  outValid := false
  err := 0#2
  response := none
  pending := []
  csdWidths := widths

/-- The machine right after reset. -/
def State.reset : State := State.resetWith Config.instanceWidths

end Sys2Proof.Machine
end

