-- ==== Sys2Proof/Machine/Flags.lean ====
section
/-! DEFINITION. The fault codes (R18, R120) and the status word (R19). -/

namespace Sys2Proof.Machine

/-- `OK`, and `err` when no fault is pending (R18, R62). -/
@[simp] abbrev codeOk : Code := 0#2

/-- `InvalidFieldWidth` (R121). -/
@[simp] abbrev codeInvalidFieldWidth : Code := 1#2

/-- `IllegalOperation` (R122). -/
@[simp] abbrev codeIllegalOperation : Code := 2#2

/-- `STATUS[15:0]`, read without side effect: bits 6:0 `fill`, bit 7 `out_valid`, bits 9:8 `err`, bits 15:10 zero (R19). -/
def statusWord (s : State) : BitVec 16 :=
  0#6 ++ s.err ++ BitVec.ofBool s.outValid ++ s.fill

end Sys2Proof.Machine
end

