-- ==== Sys2Proof/Machine/Ops.lean ====
section
/-! DEFINITION. The shared operations: the CRC function, the packer's functions, the views of `out`, responding, taking a
fault, clearing, sealing, reset, and taking the host's next event. -/

namespace Sys2Proof.Machine

/-! ### The CRC7 function (40_crc7.md section 1) -/

/-- `crc7_step` (R70). -/
def crc7Step (c : Crc) (b : Bool) : Crc :=
  let fb := c.getLsbD 6 ^^ b
  let t := c <<< 1
  if fb then t ^^^ Config.crcPoly else t

/-- `crc7_bits`: the first bit first (R72). -/
def crc7Bits (c : Crc) (bits : List Bool) : Crc :=
  bits.foldl crc7Step c

/-- The bits of a byte, `d[7]` first (R72). -/
def bitsOfByte (d : Byte) : List Bool :=
  [d.getLsbD 7, d.getLsbD 6, d.getLsbD 5, d.getLsbD 4, d.getLsbD 3, d.getLsbD 2, d.getLsbD 1, d.getLsbD 0]

/-- `crc7_byte` (R72). -/
def crc7Byte (c : Crc) (d : Byte) : Crc :=
  crc7Bits c (bitsOfByte d)

/-- `crc7_bytes` (R73). -/
def crc7Bytes (bytes : List Byte) : Crc :=
  bytes.foldl crc7Byte Config.crcInit

/-- `trailer_of(c) = (c << 1) | 1`, eight bits (R74). -/
def trailerOf (c : Crc) : Byte :=
  (c.setWidth 8 <<< 1) ||| 1#8

/-- `trailer` (R74). -/
def trailer (bytes : List Byte) : Byte :=
  trailerOf (crc7Bytes bytes)

/-! ### The packer's functions (41_packer.md section 1) -/

/-- `push_fn`: shift by the width, then OR the field in (R90). -/
def pushFn (af : Nat × Nat) (field : Nat × Nat) : Nat × Nat :=
  ((af.1 <<< field.1) ||| field.2, af.2 + field.1)

/-- `pack`, over fields `(w, v)`, first field first: the concatenation and its width (R90). -/
def pack (fields : List (Nat × Nat)) : Nat × Nat :=
  fields.foldl pushFn (0, 0)

/-- `payload_bytes`: `P[k] = a[119-8k : 112-8k]` (R91). -/
def payloadBytes (a : Payload) : List Byte :=
  (List.range Config.payloadBytes).map fun k => a.extractLsb' (112 - 8 * k) 8

/-- `seal(a) = a ‖ trailer(payload_bytes(a))` (R91). -/
def sealPayload (a : Payload) : Register :=
  a ++ trailer (payloadBytes a)

/-! ### The views of the output register (20_memory.md section 2) -/

/-- `OUT_BYTE(k) = out[127-8k : 120-8k]` of a register (R32). -/
def registerByte (r : Register) (k : Nat) : Byte :=
  r.extractLsb' (120 - 8 * k) 8

/-- `OUT_BYTE(0)` to `OUT_BYTE(15)` (R32). -/
def registerBytes (r : Register) : List Byte :=
  (List.range Config.regBytes).map (registerByte r)

/-- Bit `j` of the serial stream, `out[127-j]` (R33). -/
def serialBit (r : Register) (j : Nat) : Bool :=
  r.getLsbD (127 - j)

/-- The 128 bits of the serial stream (R33). -/
def serialStream (r : Register) : List Bool :=
  (List.range 128).map (serialBit r)

/-- What the host reads on `out`, continuously and without side effect (R16, R32). -/
def outBytes (s : State) : List Byte :=
  registerBytes s.out

/-! ### The source's functions as pure functions (R112) -/

/-- `compute_CID` over the seven fields of R47, on operands that are in range. -/
def computeCid (o : CidOperands) : List Byte :=
  registerBytes (sealPayload (BitVec.ofNat 120 (pack
    [(8, o.mid.toNat), (16, o.oid.toNat), (40, (pnmBits o.pnm).toNat), (8, o.prv.toNat), (32, o.psn.toNat),
      (4, o.rsv.toNat), (12, o.mdt.toNat)]).1))

/-- `compute_CSD` over the 28 fields, on operands that pass R109. -/
def computeCsd (fields : List CsdField) : List Byte :=
  registerBytes (sealPayload (BitVec.ofNat 120 (pack (fields.map fun f => (f.len.toNat, f.val.toNat))).1))

/-! ### Responses and faults -/

/-- `respond(status, data)` (R8, R62). -/
def respond (status : Code) (data : ResponseData) (s : State) : State :=
  { s with response := some ⟨status, data⟩ }

/-- `raise F` with the code `k`: `err <- k; respond(k, none)`, and nothing else is written (R123). -/
def raise (k : Code) (s : State) : State :=
  respond k .nothing { s with err := k }

/-- The answer of PK.PUSH and PK.SEAL while a fault is pending: the pending code, nothing written (R124). -/
def answerPending (s : State) : State :=
  respond s.err .nothing s

/-- `acc <- 0; fill <- 0; out <- 0; out_valid <- 0; err <- 0`: the writes of PK.CLR, and the only way but reset and a
successful macro by which a pending fault ends (R92, R126). -/
def clearPacker (s : State) : State :=
  { s with acc := 0#120, fill := 0#7, out := 0#128, outValid := false, err := codeOk }

/-- The reset event: every element of R10 gets its reset value, and there is no response (R140, R23). Operations issued
after it stay issued, and the instance keeps its `CSD_WIDTHS` (R142; log 7). -/
def applyReset (s : State) : State :=
  { s with
    crc := 0x00#7, acc := 0#120, fill := 0#7, out := 0#128, outValid := false, err := 0#2, response := none }

/-- Seal what `acc` holds: the CRC recomputed from `CRC_INIT` over the payload bytes, `out` the sealed register, and its 16
bytes as the response (R95, R105, R108). -/
def sealAcc (s : State) : State :=
  respond codeOk (.register (registerBytes (sealPayload s.acc)))
    { s with crc := crc7Bytes (payloadBytes s.acc), out := sealPayload s.acc, outValid := true }

/-- The writes of a successful ENC.CID or ENC.CSD with the payload `a` (R105, R108). -/
def encodePayload (a : Payload) (s : State) : State :=
  sealAcc { s with acc := a, fill := 120#7, err := codeOk }

/-! ### The host's stream -/

/-- The host issues a command word, after all it has issued before (R12, R39). -/
def hostIssue (c : CmdWord) (s : State) : State :=
  { s with pending := s.pending ++ [.issue c] }

/-- The oldest event the host has issued, and the state with it taken; `none` when there is nothing to do (R39). -/
def takeEvent (s : State) : Option (HostEvent × State) :=
  match s.pending with
  | [] => none
  | e :: rest => some (e, { s with pending := rest })

/-- Put a command word where it is taken next. -/
def placeNext (c : CmdWord) (s : State) : State :=
  { s with pending := .issue c :: s.pending }

end Sys2Proof.Machine
end

