-- ==== Sys2Proof/Machine/Operands.lean ====
section
/-! DEFINITION. The operand checks and the operand assembly of PK.PUSH, ENC.CID and ENC.CSD. -/

namespace Sys2Proof.Machine

/-! ### PK.PUSH (R93) -/

/-- `w` is a field width: 1 to 40. -/
def pushWidthOk (w : BitVec 6) : Bool :=
  decide (1 ≤ w.toNat) && decide (w.toNat ≤ Config.wMax)

/-- `v < 2^w`: the value fits its width. -/
def fieldFits (w : BitVec 6) (v : BitVec 40) : Bool :=
  decide (v.toNat < 2 ^ w.toNat)

/-- `fill + w <= 120`, as mathematical integers. -/
def roomLeft (fill : BitVec 7) (w : BitVec 6) : Bool :=
  decide (fill.toNat + w.toNat ≤ Config.payloadBits)

/-- `((acc << w) | v)[119:0]`, the barrel shift and OR. -/
def pushedAcc (acc : Payload) (w : BitVec 6) (v : BitVec 40) : Payload :=
  (acc <<< w.toNat) ||| v.setWidth 120

/-! ### ENC.CID (R105, R106) -/

/-- `0 <= x <= hi`. -/
def inRange (hi : Int) (x : Int) : Bool :=
  decide (0 ≤ x) && decide (x ≤ hi)

/-- `cid_operands_ok`, in the order of R106 and R125. -/
def cidOperandsOk (o : CidOperands) : Bool :=
  inRange 255 o.mid && inRange 65535 o.oid && o.pnm.length == 5 && inRange 255 o.prv && inRange (2 ^ 32 - 1) o.psn
    && inRange 7 o.rsv && inRange 4095 o.mdt

/-- The Reserved field: `zext_4(RSV)` (R49). -/
def reservedField (rsv : Int) : BitVec 4 :=
  (BitVec.ofInt 3 rsv).setWidth 4

/-- MID ‖ OID ‖ PNM ‖ PRV ‖ PSN ‖ zext_4(RSV) ‖ MDT (R105, R47). -/
def cidPayload (o : CidOperands) : Payload :=
  BitVec.ofInt 8 o.mid ++ BitVec.ofInt 16 o.oid ++ pnmBits o.pnm ++ BitVec.ofInt 8 o.prv ++ BitVec.ofInt 32 o.psn
    ++ reservedField o.rsv ++ BitVec.ofInt 12 o.mdt

/-! ### ENC.CSD (R108, R109) -/

/-- The widths the caller claims. -/
def claimedWidths (fields : List CsdField) : List Nat :=
  fields.map fun f => f.len.toNat

/-- `csd_operands_ok` (R109): the claimed widths are `CSD_WIDTHS`, each value fits its width, the widths sum to 120. The first
conjunct makes an instance whose `CSD_WIDTHS` breaks its constraint fault on every ENC.CSD (R109, U13; log 8). -/
def csdOperandsOk (widths : List Nat) (fields : List CsdField) : Bool :=
  Config.csdWidthsOk widths && claimedWidths fields == widths && fields.all (fun f => fieldFits f.len f.val)
    && (claimedWidths fields).sum == Config.payloadBits

/-- `val_0[len_0-1:0] ‖ val_1[len_1-1:0] ‖ ...` (R108). -/
def csdPayload (fields : List CsdField) : Payload :=
  BitVec.ofNat 120 (pack (fields.map fun f => (f.len.toNat, f.val.toNat % 2 ^ f.len.toNat))).1

end Sys2Proof.Machine
end

