-- ==== Sys2Proof/Machine/Crc.lean ====
section
/-! DEFINITION. The CRC family: CRC.CLR, CRC.BIT, CRC.BYTE, CRC.TRL, CRC.TRAILER (40_crc7.md). None of them faults or reads
`err`. -/

namespace Sys2Proof.Machine

/-- CRC.CLR: `crc <- 0x00; respond(OK, none)` (R75). -/
def execCrcClr (s : State) : Host.Outcome State Fault Refusal :=
  .next (respond codeOk .nothing { s with crc := Config.crcInit })

/-- CRC.BIT b: `crc <- crc7_step(crc, b); respond(OK, none)` (R76). -/
def execCrcBit (b : Bool) (s : State) : Host.Outcome State Fault Refusal :=
  .next (respond codeOk .nothing { s with crc := crc7Step s.crc b })

/-- CRC.BYTE d: `crc <- crc7_byte(crc, d); respond(OK, none)` (R77). -/
def execCrcByte (d : Byte) (s : State) : Host.Outcome State Fault Refusal :=
  .next (respond codeOk .nothing { s with crc := crc7Byte s.crc d })

/-- CRC.TRL: `respond(OK, trailer_of(crc))` (R78). -/
def execCrcTrl (s : State) : Host.Outcome State Fault Refusal :=
  .next (respond codeOk (.trailer (trailerOf s.crc)) s)

/-- CRC.TRAILER n, B: `crc <- crc7_bytes(B); respond(OK, trailer(B))` (R80). -/
def execCrcTrailer (bytes : List Byte) (s : State) : Host.Outcome State Fault Refusal :=
  .next (respond codeOk (.trailer (trailer bytes)) { s with crc := crc7Bytes bytes })

end Sys2Proof.Machine
end

