-- ==== Sys2Proof/Machine/Encode.lean ====
section
/-! DEFINITION. The macros ENC.CID and ENC.CSD (42_register_encode.md): all operands are checked before anything is written
(R111), and nothing of the old state is read. -/

namespace Sys2Proof.Machine

/-- ENC.CID (R105). -/
def execEncCid (o : CidOperands) (s : State) : Host.Outcome State Fault Refusal :=
  .next (if cidOperandsOk o then encodePayload (cidPayload o) s else raise codeInvalidFieldWidth s)

/-- ENC.CSD (R108), against the instance's `CSD_WIDTHS`. -/
def execEncCsd (fields : List CsdField) (s : State) : Host.Outcome State Fault Refusal :=
  .next
    (if csdOperandsOk s.csdWidths fields then encodePayload (csdPayload fields) s else raise codeInvalidFieldWidth s)

end Sys2Proof.Machine
end

