-- ==== Sys2Proof/Machine/Packer.lean ====
section
/-! DEFINITION. The packer family: PK.CLR, PK.PUSH, PK.SEAL (41_packer.md). -/

namespace Sys2Proof.Machine

/-- PK.CLR (R92). -/
def execPkClr (s : State) : Host.Outcome State Fault Refusal :=
  .next (respond codeOk .nothing (clearPacker s))

/-- PK.PUSH w, v: the pending fault, then the three checks in the order of R93, then the append. -/
def execPkPush (w : BitVec 6) (v : BitVec 40) (s : State) : Host.Outcome State Fault Refusal :=
  .next
    (if s.err ≠ codeOk then answerPending s
    else if !pushWidthOk w then raise codeInvalidFieldWidth s
    else if !fieldFits w v then raise codeInvalidFieldWidth s
    else if !roomLeft s.fill w then raise codeInvalidFieldWidth s
    else respond codeOk .nothing
      { s with acc := pushedAcc s.acc w v, fill := BitVec.ofNat 7 (s.fill.toNat + w.toNat) })

/-- PK.SEAL: the pending fault, then the check of the total, then the seal (R95). -/
def execPkSeal (s : State) : Host.Outcome State Fault Refusal :=
  .next
    (if s.err ≠ codeOk then answerPending s
    else if s.fill.toNat ≠ Config.payloadBits then raise codeInvalidFieldWidth s
    else sealAcc s)

end Sys2Proof.Machine
end

