-- ==== Sys2Proof/Machine/Reserved.lean ====
section
/-! DEFINITION. The six reserved op codes: each raises IllegalOperation and changes nothing but `err` (R60, R122). -/

namespace Sys2Proof.Machine

/-- The reserved code 0x7 (R60, R122). -/
def execReserved7 (s : State) : Host.Outcome State Fault Refusal :=
  .next (raise codeIllegalOperation s)

/-- The reserved code 0xB (R60, R122). -/
def execReservedB (s : State) : Host.Outcome State Fault Refusal :=
  .next (raise codeIllegalOperation s)

/-- The reserved code 0xC (R60, R122). -/
def execReservedC (s : State) : Host.Outcome State Fault Refusal :=
  .next (raise codeIllegalOperation s)

/-- The reserved code 0xD (R60, R122). -/
def execReservedD (s : State) : Host.Outcome State Fault Refusal :=
  .next (raise codeIllegalOperation s)

/-- The reserved code 0xE (R60, R122). -/
def execReservedE (s : State) : Host.Outcome State Fault Refusal :=
  .next (raise codeIllegalOperation s)

/-- The reserved code 0xF (R60, R122). -/
def execReservedF (s : State) : Host.Outcome State Fault Refusal :=
  .next (raise codeIllegalOperation s)

end Sys2Proof.Machine
end

