-- ==== Sys2Proof/Machine/Dispatch.lean ====
section
/-! DEFINITION. The operation map: one arm per constructor of Instr (R57, R60). -/

namespace Sys2Proof.Machine

def exec (i : Instr) (s : State) : Host.Outcome State Fault Refusal :=
  match i with
  | .crcClr => Sys2Proof.Machine.execCrcClr s
  | .crcBit b => Sys2Proof.Machine.execCrcBit b s
  | .crcByte d => Sys2Proof.Machine.execCrcByte d s
  | .crcTrl => Sys2Proof.Machine.execCrcTrl s
  | .pkClr => Sys2Proof.Machine.execPkClr s
  | .pkPush w v => Sys2Proof.Machine.execPkPush w v s
  | .pkSeal => Sys2Proof.Machine.execPkSeal s
  | .encCid o => Sys2Proof.Machine.execEncCid o s
  | .encCsd fields => Sys2Proof.Machine.execEncCsd fields s
  | .crcTrailer bytes => Sys2Proof.Machine.execCrcTrailer bytes s
  | .reserved7 => Sys2Proof.Machine.execReserved7 s
  | .reservedB => Sys2Proof.Machine.execReservedB s
  | .reservedC => Sys2Proof.Machine.execReservedC s
  | .reservedD => Sys2Proof.Machine.execReservedD s
  | .reservedE => Sys2Proof.Machine.execReservedE s
  | .reservedF => Sys2Proof.Machine.execReservedF s

end Sys2Proof.Machine
end

