-- ==== Sys2Proof/Machine/Step.lean ====
section
/-! DEFINITION. One step: the encoder takes the host's oldest event and executes it to completion (R12, R36, R39). -/

namespace Sys2Proof.Machine

/-- With nothing issued the encoder is idle and keeps all its state (R135; log 5); a reset takes effect between operations
(R140); a command word is decoded and its operation executed as one step (R12). -/
def step (s : State) : Host.Outcome State Fault Refusal :=
  match takeEvent s with
  | none => .next s
  | some (.reset, s') => .next (applyReset s')
  | some (.issue c, s') =>
    match decode c with
    | .ok i => exec i s'
    | .rejected why => .refused (.notACommandWord why)

/-- The state in which the host's next command word is the one in the low bits of `w` (log 1, log 11). -/
def State.withFetchWord (s : State) (nbits w : Nat) : State :=
  placeNext (frameTableWord nbits w) s

end Sys2Proof.Machine
end

