-- ==== Sys2Proof/Safety.lean ====
section
/-! DEFINITION. The terms claims are stated in: the invariants of R20, runs, the expansions of the macros, and the
left-aligned packer of R94. -/

namespace Sys2Proof.Machine

/-! ### The invariants (R20) -/

/-- I1: `0 <= fill <= 120`. -/
abbrev FillInRange (s : State) : Prop := s.fill.toNat ≤ 120

/-- I2: `acc < 2^fill`. -/
abbrev AccWithinFill (s : State) : Prop := s.acc.toNat < 2 ^ s.fill.toNat

/-- I3: `err` is 0, 1 or 2. -/
abbrev ErrLegal (s : State) : Prop := s.err = 0#2 ∨ s.err = 1#2 ∨ s.err = 2#2

/-- I4: `out` is zero while no register is sealed. -/
abbrev OutClearUnlessValid (s : State) : Prop := s.outValid = false → s.out = 0#128

/-- I5: a sealed `out` is the payload in `acc`, its CRC7 and the stop bit. -/
abbrev OutSealedWhenValid (s : State) : Prop :=
  s.outValid = true →
    s.fill = 120#7 ∧ s.out.extractLsb' 8 120 = s.acc ∧ s.out.extractLsb' 1 7 = crc7Bytes (payloadBytes s.acc) ∧
      s.out.getLsbD 0 = true

/-- I6: `STATUS[15:10] = 0`. -/
abbrev StatusTopZero (s : State) : Prop := (statusWord s).extractLsb' 10 6 = 0#6

/-- All of R20. -/
abbrev MachineInv (s : State) : Prop :=
  FillInRange s ∧ AccWithinFill s ∧ ErrLegal s ∧ OutClearUnlessValid s ∧ OutSealedWhenValid s ∧ StatusTopZero s

/-! ### Runs -/

/-- Operations executed one after the other; a fault of the encoder does not end the run, it is a next state (R120). -/
def execAll : List Instr → State → Host.Outcome State Fault Refusal
  | [], s => .next s
  | i :: rest, s =>
    match exec i s with
    | .next t => execAll rest t
    | .fault r => .fault r
    | .refused r => .refused r

/-- `n` steps of the machine. -/
def runSteps : Nat → State → Host.Outcome State Fault Refusal
  | 0, s => .next s
  | n + 1, s =>
    match step s with
    | .next t => runSteps n t
    | .fault r => .fault r
    | .refused r => .refused r

/-- A run that never stops: the safe runs of this machine are those on streams of command words and resets. -/
abbrev Completes (n : Nat) (s : State) : Prop := ∃ t, runSteps n s = .next t

/-- The response status of the last operation was `OK`. -/
abbrev AnsweredOk (s : State) : Prop := ∃ d, s.response = some ⟨0#2, d⟩

/-! ### The macros' expansions -/

/-- `CRC.CLR; CRC.BYTE B[0]; ...; CRC.TRL` (R81). -/
def trailerExpansion (bytes : List Byte) : List Instr :=
  .crcClr :: bytes.map .crcByte ++ [.crcTrl]

/-- `PK.CLR; PK.PUSH 8, MID; ...; PK.PUSH 12, MDT; PK.SEAL` (R107). -/
def cidExpansion (o : CidOperands) : List Instr :=
  [.pkClr, .pkPush 8#6 (BitVec.ofInt 40 o.mid), .pkPush 16#6 (BitVec.ofInt 40 o.oid), .pkPush 40#6 (pnmBits o.pnm),
    .pkPush 8#6 (BitVec.ofInt 40 o.prv), .pkPush 32#6 (BitVec.ofInt 40 o.psn), .pkPush 4#6 (BitVec.ofInt 40 o.rsv),
    .pkPush 12#6 (BitVec.ofInt 40 o.mdt), .pkSeal]

/-- The pushes of a list of fields. -/
def pushes (fields : List CsdField) : List Instr :=
  fields.map fun f => .pkPush f.len f.val

/-- `PK.CLR; PK.PUSH len_0, val_0; ...; PK.SEAL` (R110). -/
def csdExpansion (fields : List CsdField) : List Instr :=
  .pkClr :: pushes fields ++ [.pkSeal]

/-- A field PK.PUSH accepts when there is room: its width is 1 to 40 and its value fits (R93). -/
abbrev PushableField (f : CsdField) : Prop :=
  1 ≤ f.len.toNat ∧ f.len.toNat ≤ 40 ∧ f.val.toNat < 2 ^ f.len.toNat

/-- The fields as `pack` takes them (R90). -/
def asPairs (fields : List CsdField) : List (Nat × Nat) :=
  fields.map fun f => (f.len.toNat, f.val.toNat)

/-- The four CRC primitives of R145. -/
def isCrcPrimitive : Instr → Bool
  | .crcClr => true
  | .crcBit _ => true
  | .crcByte _ => true
  | .crcTrl => true
  | .pkClr => false
  | .pkPush _ _ => false
  | .pkSeal => false
  | .encCid _ => false
  | .encCsd _ => false
  | .crcTrailer _ => false
  | .reserved7 => false
  | .reservedB => false
  | .reservedC => false
  | .reservedD => false
  | .reservedE => false
  | .reservedF => false

/-! ### The left-aligned packer (R94) -/

/-- One push of the equivalent design: the field goes to bits `119 - fill` down to `120 - fill - w`. -/
def leftAlignedPush (af : Payload × Nat) (f : CsdField) : Payload × Nat :=
  (af.1 ||| (f.val.setWidth 120 <<< (120 - af.2 - f.len.toNat)), af.2 + f.len.toNat)

/-- The equivalent design's accumulator after a list of pushes. -/
def leftAlignedPack (fields : List CsdField) : Payload × Nat :=
  fields.foldl leftAlignedPush (0#120, 0)

end Sys2Proof.Machine
end

