-- ==== Sys2Proof/Certificates/Slice0/Obligations.lean ====
section
/-! DEFINITION. The statements for the provers. A statement about a successor names it explicitly: the encoder's faults are
next states, so `= .next t` with `t` written out says result and frame at once. -/

open Sys2Proof Sys2Proof.Machine

/-! ### Command words -/

/-- Decoding the encoding of every well-formed operation gives it back, with every operand at every value (30_encoding.md
Part B). -/
def Obligations.DecodeEncodeRoundTrip : Prop :=
  ∀ i : Instr, i.wellFormed = true → decode (encode i) = .ok i

/-- Every word that decodes is the encoding of what it decodes to, which is well formed: a word has one meaning. -/
def Obligations.EncodeDecodeRoundTrip : Prop :=
  ∀ (c : CmdWord) (i : Instr), decode c = .ok i → i.wellFormed = true ∧ encode i = c

/-- R50, R57, R58, R60: the strings that decode are exactly those whose length is the one `op` and, for format S, `n` give;
every one of the sixteen codes decodes at that length. The rejection of all others is the model's (log 4). -/
def Obligations.WordsOfTheProperLengthDecode : Prop :=
  ∀ c : CmdWord,
    let op := (c.bits.extractLsb' 0 4).toNat
    let proper : Nat :=
      if op = 1 then 5 else if op = 2 then 12 else if op = 5 then 50 else if op = 8 then 123 else if op = 9 then 1292
      else if op = 0xA then 20 + 8 * (c.bits.extractLsb' 4 16).toNat else 4
    (∃ i, decode c = .ok i) ↔ 4 ≤ c.len ∧ c.len = proper

/-- R51, R52, R53, R54: formats Z, B1, B8 and F: `cmd[3:0]` is the code and the operands stand at the bits the rules name. -/
def Obligations.ShortFormatsDecode : Prop :=
  (decode ⟨4, 0x0#4⟩ = .ok .crcClr ∧ decode ⟨4, 0x3#4⟩ = .ok .crcTrl ∧ decode ⟨4, 0x4#4⟩ = .ok .pkClr ∧
    decode ⟨4, 0x6#4⟩ = .ok .pkSeal) ∧
  (∀ x : BitVec 5, x.extractLsb' 0 4 = 0x1#4 → decode ⟨5, x⟩ = .ok (.crcBit (x.getLsbD 4))) ∧
  (∀ x : BitVec 12, x.extractLsb' 0 4 = 0x2#4 → decode ⟨12, x⟩ = .ok (.crcByte (x.extractLsb' 4 8))) ∧
  (∀ x : BitVec 50, x.extractLsb' 0 4 = 0x5#4 →
    decode ⟨50, x⟩ = .ok (.pkPush (x.extractLsb' 44 6) (x.extractLsb' 4 40)))

/-- R55: format CID, every operand at its bits, and no word carries an operand that R106 refuses. -/
def Obligations.FormatCidDecodes : Prop :=
  ∀ x : BitVec 123, x.extractLsb' 0 4 = 0x8#4 →
    ∃ o : CidOperands, decode ⟨123, x⟩ = .ok (.encCid o) ∧ cidOperandsOk o = true ∧
      o.mid = ((x.extractLsb' 115 8).toNat : Int) ∧ o.oid = ((x.extractLsb' 99 16).toNat : Int) ∧
      o.pnm = [x.extractLsb' 91 8, x.extractLsb' 83 8, x.extractLsb' 75 8, x.extractLsb' 67 8, x.extractLsb' 59 8] ∧
      pnmBits o.pnm = x.extractLsb' 59 40 ∧
      o.prv = ((x.extractLsb' 51 8).toNat : Int) ∧ o.psn = ((x.extractLsb' 19 32).toNat : Int) ∧
      o.rsv = ((x.extractLsb' 16 3).toNat : Int) ∧ o.mdt = ((x.extractLsb' 4 12).toNat : Int)

/-- R56: format CSD, 28 slots of 46 bits, slot `i` with its least significant bit at `b(i) = 4 + 46*(27-i)`. -/
def Obligations.FormatCsdDecodes : Prop :=
  ∀ x : BitVec 1292, x.extractLsb' 0 4 = 0x9#4 →
    ∃ fields : List CsdField, decode ⟨1292, x⟩ = .ok (.encCsd fields) ∧ fields.length = 28 ∧
      ∀ i < 28, fields[i]? =
        some ⟨x.extractLsb' (4 + 46 * (27 - i) + 40) 6, x.extractLsb' (4 + 46 * (27 - i)) 40⟩

/-- R58: format S: `n = cmd[19:4]`, then `n` bytes, `B[j]` at `cmd[20+8(n-1-j)+7 : 20+8(n-1-j)]`. -/
def Obligations.FormatSDecodes : Prop :=
  ∀ (n : Nat) (x : BitVec (20 + 8 * n)), x.extractLsb' 0 4 = 0xA#4 → (x.extractLsb' 4 16).toNat = n →
    ∃ bytes : List Byte, decode ⟨20 + 8 * n, x⟩ = .ok (.crcTrailer bytes) ∧ bytes.length = n ∧ n ≤ 65535 ∧
      ∀ j < n, bytes[j]? = some (x.extractLsb' (20 + 8 * (n - 1 - j)) 8)

/-- Words of 95_test_vectors.md section 6, one or more of each family, decode to the operation they stand for. -/
def Obligations.SpecWordsDecode : Prop :=
  decode ⟨5, 0x11#5⟩ = .ok (.crcBit true) ∧ decode ⟨12, 0x402#12⟩ = .ok (.crcByte 0x40#8) ∧
  decode ⟨50, 0x1000000034325#50⟩ = .ok (.pkPush 16#6 0x3432#40) ∧
  decode ⟨60, 0x40000000000005A#60⟩ = .ok (.crcTrailer [0x40#8, 0x00#8, 0x00#8, 0x00#8, 0x00#8]) ∧
  decode ⟨123, 0x209A1929A221A4AA18091A2B3C01128#123⟩ =
    .ok (.encCid ⟨0x41, 0x3432, [0x53#8, 0x44#8, 0x43#8, 0x49#8, 0x54#8], 0x30, 0x12345678, 0, 0x112⟩) ∧
  decode ⟨4, 0x7#4⟩ = .ok .reserved7 ∧ decode ⟨4, 0xF#4⟩ = .ok .reservedF

/-! ### The CRC function -/

/-- R71, the bit equations, which R70 gives: taps at bits 0 and 3. -/
def Obligations.CrcStepIsTheXorNetwork : Prop :=
  ∀ (c : Crc) (b : Bool),
    let fb := c.getLsbD 6 ^^ b
    let n := crc7Step c b
    n.getLsbD 0 = fb ∧ n.getLsbD 1 = c.getLsbD 0 ∧ n.getLsbD 2 = c.getLsbD 1 ∧ n.getLsbD 3 = (c.getLsbD 2 ^^ fb) ∧
      n.getLsbD 4 = c.getLsbD 3 ∧ n.getLsbD 5 = c.getLsbD 4 ∧ n.getLsbD 6 = c.getLsbD 5

/-- R73: start 0, one byte after the other, and in polynomial terms the remainder of `M(x)·x^7` by `x^7 + x^3 + 1` over GF(2),
where the first bit of the sequence is the coefficient of the highest power of `M`. -/
def Obligations.CrcIsThePolynomialRemainder : Prop :=
  crc7Bytes [] = 0x00#7 ∧
  (∀ (bytes : List Byte) (d : Byte), crc7Bytes (bytes ++ [d]) = crc7Byte (crc7Bytes bytes) d) ∧
  ∀ bytes : List Byte,
    let x : Polynomial (ZMod 2) := Polynomial.X
    let bits : List Bool := bytes.flatMap fun d =>
      [d.getLsbD 7, d.getLsbD 6, d.getLsbD 5, d.getLsbD 4, d.getLsbD 3, d.getLsbD 2, d.getLsbD 1, d.getLsbD 0]
    let message : Polynomial (ZMod 2) := ∑ k ∈ Finset.range bits.length, if bits.getD k false then x ^ (bits.length - 1 - k) else 0
    (∑ k ∈ Finset.range 7, if (crc7Bytes bytes).getLsbD k then x ^ k else 0) = (message * x ^ 7) %ₘ (x ^ 7 + x ^ 3 + 1)

/-- R79 L3: linearity, for bit sequences and for byte sequences of equal length. -/
def Obligations.CrcIsLinear : Prop :=
  (∀ (c₁ c₂ : Crc) (xs ys : List Bool), xs.length = ys.length →
    crc7Bits (c₁ ^^^ c₂) (List.zipWith (fun a b => a ^^ b) xs ys) = crc7Bits c₁ xs ^^^ crc7Bits c₂ ys) ∧
  (∀ as bs : List Byte, as.length = bs.length →
    crc7Bytes (List.zipWith (fun a b => a ^^^ b) as bs) = crc7Bytes as ^^^ crc7Bytes bs)

/-- R79 L4: zero bytes in front of a sequence change nothing, and the all-zero sequence of any length has the trailer 0x01. -/
def Obligations.LeadingZerosDoNotCount : Prop :=
  ∀ (k : Nat) (bytes : List Byte),
    crc7Bytes (List.replicate k 0x00#8 ++ bytes) = crc7Bytes bytes ∧ trailer (List.replicate k 0x00#8) = 0x01#8

/-- R79 L5: the seven CRC bits after the sequence leave 0, the stop bit after them 0x09, for every sequence. -/
def Obligations.TrailerSelfChecks : Prop :=
  ∀ bytes : List Byte,
    let c := crc7Bytes bytes
    crc7Bits c [c.getLsbD 6, c.getLsbD 5, c.getLsbD 4, c.getLsbD 3, c.getLsbD 2, c.getLsbD 1, c.getLsbD 0] = 0x00#7 ∧
      crc7Bytes (bytes ++ [trailer bytes]) = 0x09#7

/-- R45, R74 and R79 L6, L7: the trailer's bits 7:1 are the CRC, its bit 0 is 1, its value is `(CRC7 << 1) | 1` with no
overflow, and every odd byte is the trailer of some one-byte sequence. -/
def Obligations.TrailerByteShape : Prop :=
  (∀ c : Crc, (trailerOf c).toNat = (c.toNat <<< 1) ||| 1) ∧
  (∀ bytes : List Byte,
    trailer bytes = trailerOf (crc7Bytes bytes) ∧ (trailer bytes).extractLsb' 1 7 = crc7Bytes bytes ∧
      (trailer bytes).getLsbD 0 = true ∧ (trailer bytes).toNat = ((crc7Bytes bytes).toNat <<< 1) ||| 1) ∧
  (∀ t : Byte, t.getLsbD 0 = true → ∃ d : Byte, trailer [d] = t)

/-! ### The CRC operations -/

/-- R75, with its encoding: `crc <- 0x00`, answered OK, from every state, nothing else changed. -/
def Obligations.CrcClrResult : Prop :=
  encode .crcClr = ⟨4, 0x0#4⟩ ∧
  ∀ s : State, exec .crcClr s = .next { s with crc := 0x00#7, response := some ⟨0#2, .nothing⟩ }

/-- R76, with its encoding: one step of the shift register from whatever `crc` holds. -/
def Obligations.CrcBitResult : Prop :=
  (∀ b : Bool, encode (.crcBit b) = ⟨5, BitVec.ofBool b ++ 0x1#4⟩) ∧
  ∀ (b : Bool) (s : State),
    exec (.crcBit b) s = .next { s with crc := crc7Step s.crc b, response := some ⟨0#2, .nothing⟩ }

/-- R77, with its encoding: `crc7_byte`, which is eight CRC.BIT operations with `d[7]` first. -/
def Obligations.CrcByteResult : Prop :=
  (∀ d : Byte, encode (.crcByte d) = ⟨12, d ++ 0x2#4⟩) ∧
  ∀ (d : Byte) (s : State),
    exec (.crcByte d) s = .next { s with crc := crc7Byte s.crc d, response := some ⟨0#2, .nothing⟩ } ∧
    exec (.crcByte d) s = execAll [.crcBit (d.getLsbD 7), .crcBit (d.getLsbD 6), .crcBit (d.getLsbD 5), .crcBit (d.getLsbD 4),
      .crcBit (d.getLsbD 3), .crcBit (d.getLsbD 2), .crcBit (d.getLsbD 1), .crcBit (d.getLsbD 0)] s

/-- R78, with its encoding: the response is `(crc << 1) | 1` in eight bits; no state element changes. -/
def Obligations.CrcTrlResult : Prop :=
  encode .crcTrl = ⟨4, 0x3#4⟩ ∧
  ∀ s : State, exec .crcTrl s = .next { s with response := some ⟨0#2, .trailer (s.crc ++ 1#1)⟩ }

/-- R80, with its encoding: `crc <- crc7_bytes(B)` and the trailer of `B`, whatever the state before, for a list of any
length; up to 65535 bytes fit a command word. -/
def Obligations.CrcTrailerResult : Prop :=
  (∀ bytes : List Byte, bytes.length ≤ 65535 →
    ∃ x : BitVec (20 + 8 * bytes.length), encode (.crcTrailer bytes) = ⟨20 + 8 * bytes.length, x⟩ ∧
      x.extractLsb' 0 4 = 0xA#4 ∧ (x.extractLsb' 4 16).toNat = bytes.length ∧
      ∀ j < bytes.length, bytes[j]? = some (x.extractLsb' (20 + 8 * (bytes.length - 1 - j)) 8)) ∧
  ∀ (bytes : List Byte) (s : State),
    exec (.crcTrailer bytes) s =
      .next { s with crc := crc7Bytes bytes, response := some ⟨0#2, .trailer (trailer bytes)⟩ }

/-- R81: CRC.TRAILER leaves the state and the response its expansion leaves. -/
def Obligations.CrcTrailerEqualsItsExpansion : Prop :=
  ∀ (bytes : List Byte) (s : State), execAll (trailerExpansion bytes) s = exec (.crcTrailer bytes) s

/-! ### The packer -/

/-- R92, with its encoding: the packer as after reset, `crc` kept, from every state, a pending fault included. -/
def Obligations.PkClrResult : Prop :=
  encode .pkClr = ⟨4, 0x4#4⟩ ∧
  ∀ s : State, exec .pkClr s =
    .next { s with
      acc := 0#120, fill := 0#7, out := 0#128, outValid := false, err := 0#2, response := some ⟨0#2, .nothing⟩ }

/-- R93, with its encoding: the append when no fault is pending and the three checks pass; InvalidFieldWidth with only `err`
changed when one fails, `fill + w` taken as an integer; the pending code when a fault is pending. -/
def Obligations.PkPushResult : Prop :=
  (∀ (w : BitVec 6) (v : BitVec 40), encode (.pkPush w v) = ⟨50, w ++ v ++ 0x5#4⟩) ∧
  (∀ (w : BitVec 6) (v : BitVec 40) (s : State), s.err = 0#2 → 1 ≤ w.toNat → w.toNat ≤ 40 → v.toNat < 2 ^ w.toNat →
    s.fill.toNat + w.toNat ≤ 120 →
    exec (.pkPush w v) s = .next { s with
      acc := (s.acc <<< w.toNat) ||| v.setWidth 120, fill := BitVec.ofNat 7 (s.fill.toNat + w.toNat),
      response := some ⟨0#2, .nothing⟩ }) ∧
  (∀ (w : BitVec 6) (v : BitVec 40) (s : State), s.err = 0#2 →
    (w.toNat = 0 ∨ 40 < w.toNat ∨ 2 ^ w.toNat ≤ v.toNat ∨ 120 < s.fill.toNat + w.toNat) →
    exec (.pkPush w v) s = .next { s with err := 1#2, response := some ⟨1#2, .nothing⟩ }) ∧
  (∀ (w : BitVec 6) (v : BitVec 40) (s : State), s.err ≠ 0#2 →
    exec (.pkPush w v) s = .next { s with response := some ⟨s.err, .nothing⟩ })

/-- R97 and R93's corner cases: where I2 of R20 holds, an accepted push drops no set bit: `acc` becomes `acc·2^w + v`, `fill`
becomes `fill + w` without wrapping, and I2 holds again. -/
def Obligations.PkPushLosesNoBit : Prop :=
  ∀ (w : BitVec 6) (v : BitVec 40) (s : State), s.err = 0#2 → 1 ≤ w.toNat → w.toNat ≤ 40 → v.toNat < 2 ^ w.toNat →
    s.fill.toNat + w.toNat ≤ 120 → s.acc.toNat < 2 ^ s.fill.toNat →
    ∃ t, exec (.pkPush w v) s = .next t ∧ t.acc.toNat = s.acc.toNat * 2 ^ w.toNat + v.toNat ∧
      t.fill.toNat = s.fill.toNat + w.toNat ∧ t.acc.toNat < 2 ^ t.fill.toNat

/-- R95, with its encoding: the seal when `fill = 120`, with `crc` recomputed from 0; InvalidFieldWidth with only `err` changed
otherwise; the pending code when a fault is pending; sealing again answers the same and changes nothing. -/
def Obligations.PkSealResult : Prop :=
  encode .pkSeal = ⟨4, 0x6#4⟩ ∧
  (∀ s : State, s.err = 0#2 → s.fill = 120#7 →
    exec .pkSeal s = .next { s with
      crc := crc7Bytes (payloadBytes s.acc), out := s.acc ++ trailer (payloadBytes s.acc), outValid := true,
      response := some ⟨0#2, .register (registerBytes (s.acc ++ trailer (payloadBytes s.acc)))⟩ }) ∧
  (∀ s : State, s.err = 0#2 → s.fill ≠ 120#7 →
    exec .pkSeal s = .next { s with err := 1#2, response := some ⟨1#2, .nothing⟩ }) ∧
  (∀ s : State, s.err ≠ 0#2 → exec .pkSeal s = .next { s with response := some ⟨s.err, .nothing⟩ }) ∧
  (∀ s t : State, exec .pkSeal s = .next t → AnsweredOk t → exec .pkSeal t = .next t)

/-- R96 P3 and P6: from every state, PK.CLR and then pushes of fields that are pushable and fit 120 bits leave `pack` of the
fields, whatever the state was; if they fill the payload, PK.SEAL gives `seal`. -/
def Obligations.PushSequenceIsPack : Prop :=
  ∀ (fields : List CsdField) (s : State), (∀ f ∈ fields, PushableField f) →
    (fields.map fun f => f.len.toNat).sum ≤ 120 →
    ∃ t, execAll (.pkClr :: pushes fields) s = .next t ∧ t.acc.toNat = (pack (asPairs fields)).1 ∧
      t.fill.toNat = (pack (asPairs fields)).2 ∧ t.err = 0#2 ∧ t.crc = s.crc ∧ t.out = 0#128 ∧ t.outValid = false ∧
      ((pack (asPairs fields)).2 = 120 →
        ∃ u, exec .pkSeal t = .next u ∧ AnsweredOk u ∧ u.out = sealPayload (BitVec.ofNat 120 (pack (asPairs fields)).1))

/-- R96 P2: two adjacent fields pack as their concatenation does. -/
def Obligations.MergingFieldsKeepsPack : Prop :=
  ∀ (xs ys : List (Nat × Nat)) (w₁ v₁ w₂ v₂ : Nat), v₁ < 2 ^ w₁ → v₂ < 2 ^ w₂ →
    pack (xs ++ [(w₁, v₁), (w₂, v₂)] ++ ys) = pack (xs ++ [(w₁ + w₂, (v₁ <<< w₂) ||| v₂)] ++ ys)

/-- R94: the left-aligned design's accumulator is `acc << (120 - fill)` after every sequence of accepted pushes, so the two
agree when the payload is full. -/
def Obligations.LeftAlignedDesignAgrees : Prop :=
  ∀ (fields : List CsdField) (s : State), (∀ f ∈ fields, PushableField f) →
    (fields.map fun f => f.len.toNat).sum ≤ 120 →
    ∃ t, execAll (.pkClr :: pushes fields) s = .next t ∧ (leftAlignedPack fields).2 = t.fill.toNat ∧
      (leftAlignedPack fields).1 = t.acc <<< (120 - t.fill.toNat) ∧
      (t.fill.toNat = 120 → (leftAlignedPack fields).1 = t.acc)

/-- R91, R46 and R96 P1, P4, P5: a sealed register is the payload, its CRC7 and the stop bit; as bytes, the 15 payload bytes and
the trailer; the CRC of all 16 bytes is 0x09; different payloads seal to different registers. -/
def Obligations.SealedRegisterShape : Prop :=
  (∀ a : Payload, ∀ k < 15, (payloadBytes a)[k]? = some (a.extractLsb' (112 - 8 * k) 8)) ∧
  (∀ a : Payload,
    (payloadBytes a).length = 15 ∧ (sealPayload a).extractLsb' 8 120 = a ∧ (sealPayload a).extractLsb' 1 7 = crc7Bytes (payloadBytes a) ∧
      (sealPayload a).getLsbD 0 = true ∧ registerBytes (sealPayload a) = payloadBytes a ++ [trailer (payloadBytes a)] ∧
      (registerBytes (sealPayload a)).length = 16 ∧ crc7Bytes (registerBytes (sealPayload a)) = 0x09#7) ∧
  (∀ a b : Payload, sealPayload a = sealPayload b → a = b)

/-- R32, R33, R34: the 16 bytes, the 128-bit stream and the payload bits of a register are one value read three ways. -/
def Obligations.ViewsOfOutAgree : Prop :=
  ∀ r : Register,
    (∀ k < 16, (registerBytes r)[k]? = some (r.extractLsb' (120 - 8 * k) 8)) ∧ (registerBytes r).length = 16 ∧
    (∀ j < 128, (serialStream r)[j]? = some (r.getLsbD (127 - j))) ∧ (serialStream r).length = 128 ∧
    (∀ k < 16, ∀ j < 8, (serialStream r)[8 * k + j]? = some ((registerByte r k).getLsbD (7 - j))) ∧
    (∀ p < 120, (r.extractLsb' 8 120).getLsbD p = (registerByte r ((119 - p) / 8)).getLsbD (7 - (119 - p) % 8))

/-! ### ENC.CID and ENC.CSD -/

/-- R105 with its encoding, R106, R111 and R47, R49: with operands in range, from every state, all six elements are written from the operands,
RSV zero-extended to the 4-bit Reserved field; with any operand out of range only `err` changes. -/
def Obligations.EncCidResult : Prop :=
  (∀ o : CidOperands, encode (.encCid o) =
    ⟨123, BitVec.ofInt 8 o.mid ++ BitVec.ofInt 16 o.oid ++ pnmBits o.pnm ++ BitVec.ofInt 8 o.prv ++ BitVec.ofInt 32 o.psn ++
      BitVec.ofInt 3 o.rsv ++ BitVec.ofInt 12 o.mdt ++ 0x8#4⟩) ∧
  (∀ (o : CidOperands) (s : State),
    (0 ≤ o.mid ∧ o.mid ≤ 255) → (0 ≤ o.oid ∧ o.oid ≤ 65535) → o.pnm.length = 5 → (0 ≤ o.prv ∧ o.prv ≤ 255) →
    (0 ≤ o.psn ∧ o.psn ≤ 2 ^ 32 - 1) → (0 ≤ o.rsv ∧ o.rsv ≤ 7) → (0 ≤ o.mdt ∧ o.mdt ≤ 4095) →
    let a : Payload := BitVec.ofInt 8 o.mid ++ BitVec.ofInt 16 o.oid ++ pnmBits o.pnm ++ BitVec.ofInt 8 o.prv ++
      BitVec.ofInt 32 o.psn ++ BitVec.ofInt 4 o.rsv ++ BitVec.ofInt 12 o.mdt
    exec (.encCid o) s = .next { s with
      acc := a, fill := 120#7, crc := crc7Bytes (payloadBytes a), out := sealPayload a, outValid := true, err := 0#2,
      response := some ⟨0#2, .register (registerBytes (sealPayload a))⟩ }) ∧
  (∀ (o : CidOperands) (s : State),
    ¬((0 ≤ o.mid ∧ o.mid ≤ 255) ∧ (0 ≤ o.oid ∧ o.oid ≤ 65535) ∧ o.pnm.length = 5 ∧ (0 ≤ o.prv ∧ o.prv ≤ 255) ∧
      (0 ≤ o.psn ∧ o.psn ≤ 2 ^ 32 - 1) ∧ (0 ≤ o.rsv ∧ o.rsv ≤ 7) ∧ (0 ≤ o.mdt ∧ o.mdt ≤ 4095)) →
    exec (.encCid o) s = .next { s with err := 1#2, response := some ⟨1#2, .nothing⟩ })

/-- R113 T1, T3, T5: the sixteen bytes of a CID, byte by byte, and the self-check. -/
def Obligations.CidBytes : Prop :=
  ∀ (o : CidOperands) (s : State), cidOperandsOk o = true →
    ∃ t, exec (.encCid o) s = .next t ∧
      (let front := [BitVec.ofInt 8 o.mid, BitVec.ofInt 8 (o.oid / 256), BitVec.ofInt 8 o.oid] ++ o.pnm ++
        [BitVec.ofInt 8 o.prv, BitVec.ofInt 8 (o.psn / 2 ^ 24), BitVec.ofInt 8 (o.psn / 2 ^ 16),
          BitVec.ofInt 8 (o.psn / 2 ^ 8), BitVec.ofInt 8 o.psn, BitVec.ofInt 8 (o.rsv * 16 + o.mdt / 256),
          BitVec.ofInt 8 o.mdt]
      outBytes t = front ++ [trailer front]) ∧
      (outBytes t).length = 16 ∧ crc7Bytes (outBytes t) = 0x09#7

/-- R107: ENC.CID leaves the state and the response its expansion into PK operations leaves. -/
def Obligations.EncCidEqualsItsExpansion : Prop :=
  ∀ (o : CidOperands) (s : State), cidOperandsOk o = true → execAll (cidExpansion o) s = exec (.encCid o) s

/-- R108 with its encoding, R109, R111: on an instance whose `CSD_WIDTHS` meets R6, with 28 fields of the declared widths whose values fit, all six
elements are written from the fields; if one of R109's checks fails, on any instance, only `err` changes. Fields are a list of
28, as a command word carries them. -/
def Obligations.EncCsdResult : Prop :=
  (∀ fields : List CsdField, fields.length = 28 →
    ∃ x : BitVec 1292, encode (.encCsd fields) = ⟨1292, x⟩ ∧ x.extractLsb' 0 4 = 0x9#4 ∧
      ∀ i < 28, fields[i]? = some ⟨x.extractLsb' (4 + 46 * (27 - i) + 40) 6, x.extractLsb' (4 + 46 * (27 - i)) 40⟩) ∧
  (∀ (fields : List CsdField) (s : State), Config.csdWidthsOk s.csdWidths = true → fields.length = 28 →
    (∀ i < 28, (fields[i]?).map (fun f => f.len.toNat) = s.csdWidths[i]?) → (∀ f ∈ fields, f.val.toNat < 2 ^ f.len.toNat) →
    ∃ a : Payload, a.toNat = (pack (asPairs fields)).1 ∧
      exec (.encCsd fields) s = .next { s with
        acc := a, fill := 120#7, crc := crc7Bytes (payloadBytes a), out := sealPayload a, outValid := true, err := 0#2,
        response := some ⟨0#2, .register (registerBytes (sealPayload a))⟩ }) ∧
  (∀ (fields : List CsdField) (s : State), fields.length = 28 →
    ((∃ i < 28, (fields[i]?).map (fun f => f.len.toNat) ≠ s.csdWidths[i]?) ∨ (∃ f ∈ fields, 2 ^ f.len.toNat ≤ f.val.toNat) ∨
      (fields.map fun f => f.len.toNat).sum ≠ 120) →
    exec (.encCsd fields) s = .next { s with err := 1#2, response := some ⟨1#2, .nothing⟩ })

/-- The rest of R109's case, 93_implementation_defined.md U13 and the model's log 8 and log 9: an instance whose `CSD_WIDTHS`
breaks its constraint, and a list of fields that is not 28 long, fault on ENC.CSD with only `err` changed. -/
def Obligations.EncCsdFaultsOutsideItsDomain : Prop :=
  ∀ (fields : List CsdField) (s : State), (Config.csdWidthsOk s.csdWidths = false ∨ fields.length ≠ 28) →
    exec (.encCsd fields) s = .next { s with err := 1#2, response := some ⟨1#2, .nothing⟩ }

/-- R48: with `S(i)` the sum of the first `i` declared widths, field `i` occupies payload bits `119 - S(i)` down to
`120 - S(i+1)` and register bits `127 - S(i)` down to `128 - S(i+1)`, and the trailer follows. -/
def Obligations.CsdFieldPlacement : Prop :=
  ∀ (fields : List CsdField) (s : State), csdOperandsOk s.csdWidths fields = true →
    ∃ t, exec (.encCsd fields) s = .next t ∧ (s.csdWidths.take 28).sum = 120 ∧ t.out = sealPayload t.acc ∧
      ∀ (i : Nat) (f : CsdField), fields[i]? = some f →
        (t.acc.toNat >>> (120 - (s.csdWidths.take (i + 1)).sum)) % 2 ^ f.len.toNat = f.val.toNat ∧
        (t.out.toNat >>> (128 - (s.csdWidths.take (i + 1)).sum)) % 2 ^ f.len.toNat = f.val.toNat ∧
        (s.csdWidths.take (i + 1)).sum = (s.csdWidths.take i).sum + f.len.toNat

/-- R110: ENC.CSD leaves the state and the response its expansion into PK operations leaves. -/
def Obligations.EncCsdEqualsItsExpansion : Prop :=
  ∀ (fields : List CsdField) (s : State), csdOperandsOk s.csdWidths fields = true →
    execAll (csdExpansion fields) s = exec (.encCsd fields) s

/-- R112: response and state after a macro whose operands pass are functions of the operands (and `CSD_WIDTHS`) alone, and the
response carries `compute_CID` and `compute_CSD`. -/
def Obligations.EncodersArePure : Prop :=
  (∀ (o : CidOperands) (s s' : State), cidOperandsOk o = true →
    ∃ t t', exec (.encCid o) s = .next t ∧ exec (.encCid o) s' = .next t' ∧
      t.crc = t'.crc ∧ t.acc = t'.acc ∧ t.fill = t'.fill ∧ t.out = t'.out ∧ t.outValid = t'.outValid ∧ t.err = t'.err ∧
      t.response = some ⟨0#2, .register (computeCid o)⟩ ∧ t'.response = t.response) ∧
  (∀ (fields : List CsdField) (s s' : State), s.csdWidths = s'.csdWidths → csdOperandsOk s.csdWidths fields = true →
    ∃ t t', exec (.encCsd fields) s = .next t ∧ exec (.encCsd fields) s' = .next t' ∧
      t.crc = t'.crc ∧ t.acc = t'.acc ∧ t.fill = t'.fill ∧ t.out = t'.out ∧ t.outValid = t'.outValid ∧ t.err = t'.err ∧
      t.response = some ⟨0#2, .register (computeCsd fields)⟩ ∧ t'.response = t.response)

/-- R113 T4: operands that differ in anything give different sixteen bytes, CID by CID and, for one `CSD_WIDTHS`, CSD by CSD. -/
def Obligations.EncodersAreInjective : Prop :=
  (∀ (o o' : CidOperands) (s s' t t' : State), cidOperandsOk o = true → cidOperandsOk o' = true →
    exec (.encCid o) s = .next t → exec (.encCid o') s' = .next t' → outBytes t = outBytes t' → o = o') ∧
  (∀ (fs fs' : List CsdField) (s s' t t' : State), s.csdWidths = s'.csdWidths →
    csdOperandsOk s.csdWidths fs = true → csdOperandsOk s'.csdWidths fs' = true →
    exec (.encCsd fs) s = .next t → exec (.encCsd fs') s' = .next t' → outBytes t = outBytes t' → fs = fs')

/-! ### Faults -/

/-- R60, R122: every reserved code is a four-bit word that raises IllegalOperation and changes nothing but `err`, also while a
fault is pending. -/
def Obligations.ReservedCodesRaise : Prop :=
  (∀ s : State, ∀ i ∈ [Instr.reserved7, .reservedB, .reservedC, .reservedD, .reservedE, .reservedF],
    exec i s = .next { s with err := 2#2, response := some ⟨2#2, .nothing⟩ }) ∧
  decode ⟨4, 0x7#4⟩ = .ok .reserved7 ∧ decode ⟨4, 0xB#4⟩ = .ok .reservedB ∧ decode ⟨4, 0xC#4⟩ = .ok .reservedC ∧
  decode ⟨4, 0xD#4⟩ = .ok .reservedD ∧ decode ⟨4, 0xE#4⟩ = .ok .reservedE ∧ decode ⟨4, 0xF#4⟩ = .ok .reservedF

/-- R120, R123: an operation that answers a fault code leaves everything but `err` as it was, and returns no data; `err` holds
the code afterwards. -/
def Obligations.FaultsArePrecise : Prop :=
  ∀ (i : Instr) (s t : State) (k : Code) (d : ResponseData), exec i s = .next t → t.response = some ⟨k, d⟩ → k ≠ 0#2 →
    d = .nothing ∧ t = { s with err := k, response := some ⟨k, .nothing⟩ }

/-- R121: with no fault pending and `CSD_WIDTHS` as R6 wants it, an operation answers InvalidFieldWidth exactly for the causes
listed there. A list of fields that is not 28 long, which no command word carries, counts as cause (f): the model's choice
(log 9). -/
def Obligations.InvalidFieldWidthCauses : Prop :=
  ∀ (i : Instr) (s t : State), s.err = 0#2 → Config.csdWidthsOk s.csdWidths = true → exec i s = .next t →
    (t.response = some ⟨1#2, .nothing⟩ ↔
      (∃ w v, i = .pkPush w v ∧
        (w.toNat = 0 ∨ 40 < w.toNat ∨ 2 ^ w.toNat ≤ v.toNat ∨ 120 < s.fill.toNat + w.toNat)) ∨
      (i = .pkSeal ∧ s.fill.toNat ≠ 120) ∨
      (∃ o, i = .encCid o ∧
        (o.mid < 0 ∨ 255 < o.mid ∨ o.oid < 0 ∨ 65535 < o.oid ∨ o.pnm.length ≠ 5 ∨ o.prv < 0 ∨ 255 < o.prv ∨
          o.psn < 0 ∨ 2 ^ 32 - 1 < o.psn ∨ o.rsv < 0 ∨ 7 < o.rsv ∨ o.mdt < 0 ∨ 4095 < o.mdt)) ∨
      (∃ fields, i = .encCsd fields ∧
        (fields.map (fun f => f.len.toNat) ≠ s.csdWidths ∨ (∃ f ∈ fields, 2 ^ f.len.toNat ≤ f.val.toNat) ∨
          (fields.map fun f => f.len.toNat).sum ≠ 120)))

/-- R124: while `err ≠ 0`, PK.PUSH and PK.SEAL write nothing and answer the pending code; the CRC operations run and leave
`err`; PK.CLR clears it; the macros clear it or write 1; a reserved code writes 2. Which ENC.CSD operands fail outside 28 fields
and an admissible `CSD_WIDTHS` is the model's reading (log 8, log 9). -/
def Obligations.PendingFaultBehaviour : Prop :=
  ∀ s : State, s.err ≠ 0#2 →
    (∀ w v, exec (.pkPush w v) s = .next { s with response := some ⟨s.err, .nothing⟩ }) ∧
    exec .pkSeal s = .next { s with response := some ⟨s.err, .nothing⟩ } ∧
    (∀ i, (isCrcPrimitive i = true ∨ ∃ bytes, i = .crcTrailer bytes) →
      ∃ t, exec i s = .next t ∧ AnsweredOk t ∧ t.err = s.err) ∧
    (∃ t, exec .pkClr s = .next t ∧ t.err = 0#2) ∧
    (∀ o, ∃ t, exec (.encCid o) s = .next t ∧ t.err = if cidOperandsOk o then 0#2 else 1#2) ∧
    (∀ fields, ∃ t, exec (.encCsd fields) s = .next t ∧ t.err = if csdOperandsOk s.csdWidths fields then 0#2 else 1#2) ∧
    (∀ i ∈ [Instr.reserved7, .reservedB, .reservedC, .reservedD, .reservedE, .reservedF],
      ∃ t, exec i s = .next t ∧ t.err = 2#2)

/-- R126: a pending fault ends in a step exactly when that step is a reset, PK.CLR or a macro whose operands pass; a fault
raised meanwhile leaves in `err` the code it answers, and only a macro or a reserved code can raise one. Operations and resets
as events of one stream are the model's choice (log 1, log 7), the idle step its reading of R135 (log 5). -/
def Obligations.ErrClearsInThreeWays : Prop :=
  ∀ s t : State, s.err ≠ 0#2 → step s = .next t →
    (t.err = 0#2 ↔
      (∃ rest, s.pending = .reset :: rest) ∨
      (∃ c rest, s.pending = .issue c :: rest ∧
        (decode c = .ok .pkClr ∨ (∃ o, decode c = .ok (.encCid o) ∧ cidOperandsOk o = true) ∨
          (∃ fields, decode c = .ok (.encCsd fields) ∧ csdOperandsOk s.csdWidths fields = true)))) ∧
    (∀ c rest i k d, s.pending = .issue c :: rest → decode c = .ok i → t.response = some ⟨k, d⟩ → k ≠ 0#2 →
      t.err = k ∧ (k ≠ s.err → (∃ o, i = .encCid o) ∨ (∃ fields, i = .encCsd fields) ∨
        i ∈ [Instr.reserved7, .reservedB, .reservedC, .reservedD, .reservedE, .reservedF]))

/-- R149: once `err ≠ 0`, no run of operations without PK.CLR and without a macro whose operands pass changes `acc`, `fill`,
`out` or `out_valid`, or ends the fault. Operands that fail include an ill-formed `CSD_WIDTHS` and a list not 28 long (log 8,
log 9). -/
def Obligations.ShutPackerNeverSeals : Prop :=
  ∀ (is : List Instr) (s : State), s.err ≠ 0#2 →
    (∀ i ∈ is, i ≠ .pkClr ∧ (∀ o, i = .encCid o → cidOperandsOk o = false) ∧
      (∀ fields, i = .encCsd fields → csdOperandsOk s.csdWidths fields = false)) →
    ∃ t, execAll is s = .next t ∧ t.err ≠ 0#2 ∧ t.acc = s.acc ∧ t.fill = s.fill ∧ t.out = s.out ∧ t.outValid = s.outValid

/-! ### Whole-machine rules -/

/-- R62: every operation answers; with the status OK the data is the 8-bit trailer for CRC.TRL and CRC.TRAILER, the 16 bytes of
the new `out` for PK.SEAL, ENC.CID and ENC.CSD, and nothing for every other operation; with any other status there is none. -/
def Obligations.ResponsesCarryTheirData : Prop :=
  ∀ (i : Instr) (s : State), ∃ t k d, exec i s = .next t ∧ t.response = some ⟨k, d⟩ ∧
    (k ≠ 0#2 → d = .nothing) ∧
    (k = 0#2 → match i with
      | .crcTrl => d = .trailer (trailerOf s.crc)
      | .crcTrailer bytes => d = .trailer (trailer bytes)
      | .pkSeal => d = .register (outBytes t)
      | .encCid _ => d = .register (outBytes t)
      | .encCsd _ => d = .register (outBytes t)
      | _ => d = .nothing) ∧
    (s.err ≠ 3#2 → k = 0#2 ∨ k = 1#2 ∨ k = 2#2)

/-- R145: CRC.CLR, CRC.BIT, CRC.BYTE and CRC.TRL anywhere in a sequence of operations change neither the packer's state nor
what a PK.SEAL at the end answers. -/
def Obligations.CrcPrimitivesNeverDisturbThePacker : Prop :=
  ∀ (is : List Instr) (s : State),
    ∃ t t', execAll (is ++ [.pkSeal]) s = .next t ∧
      execAll (is.filter (fun i => !isCrcPrimitive i) ++ [.pkSeal]) s = .next t' ∧
      t.acc = t'.acc ∧ t.fill = t'.fill ∧ t.out = t'.out ∧ t.outValid = t'.outValid ∧ t.err = t'.err ∧
      t.response = t'.response

/-- R17: `out_valid` is set by a successful PK.SEAL, ENC.CID or ENC.CSD, cleared by PK.CLR and reset, and left alone by every
fault and every other operation. -/
def Obligations.OutValidIsWrittenByTheseOnly : Prop :=
  (∀ (i : Instr) (s t : State), exec i s = .next t →
    (AnsweredOk t → (i = .pkSeal ∨ (∃ o, i = .encCid o) ∨ (∃ fields, i = .encCsd fields)) → t.outValid = true) ∧
    (i = .pkClr → t.outValid = false) ∧
    (¬AnsweredOk t → t.outValid = s.outValid) ∧
    (i ≠ .pkClr → i ≠ .pkSeal → (∀ o, i ≠ .encCid o) → (∀ fields, i ≠ .encCsd fields) → t.outValid = s.outValid)) ∧
  (∀ s : State, (applyReset s).outValid = false)

/-- R13: `crc` is written by CRC.CLR, CRC.BIT, CRC.BYTE and CRC.TRAILER, and by a successful seal or macro with the CRC7 of the
sealed payload; no other operation and no fault changes it. -/
def Obligations.CrcIsWrittenByTheseOnly : Prop :=
  ∀ (i : Instr) (s t : State), exec i s = .next t →
    ((i = .pkSeal ∨ (∃ o, i = .encCid o) ∨ (∃ fields, i = .encCsd fields)) → AnsweredOk t →
      t.crc = crc7Bytes (payloadBytes t.acc) ∧ t.crc = t.out.extractLsb' 1 7) ∧
    (¬AnsweredOk t → t.crc = s.crc) ∧
    (t.crc ≠ s.crc → i = .crcClr ∨ (∃ b, i = .crcBit b) ∨ (∃ d, i = .crcByte d) ∨ (∃ bytes, i = .crcTrailer bytes) ∨
      i = .pkSeal ∨ (∃ o, i = .encCid o) ∨ (∃ fields, i = .encCsd fields))

/-- The frames, operation by operation (the table of R10: written by): the CRC operations leave the packer's five elements;
PK.CLR and PK.PUSH leave `crc`; PK.PUSH leaves `out` and `out_valid`; PK.SEAL leaves `acc` and `fill`; CRC.TRL leaves `crc`;
no operation touches what the host has issued or the instance's `CSD_WIDTHS`. There is no memory (R30). -/
def Obligations.OperationFrames : Prop :=
  ∀ (i : Instr) (s t : State), exec i s = .next t →
    (t.pending = s.pending ∧ t.csdWidths = s.csdWidths) ∧
    ((isCrcPrimitive i = true ∨ ∃ bytes, i = .crcTrailer bytes) →
      t.acc = s.acc ∧ t.fill = s.fill ∧ t.out = s.out ∧ t.outValid = s.outValid ∧ t.err = s.err) ∧
    (i = .crcTrl → t.crc = s.crc) ∧
    (i = .pkClr → t.crc = s.crc) ∧
    ((∃ w v, i = .pkPush w v) → t.crc = s.crc ∧ t.out = s.out ∧ t.outValid = s.outValid) ∧
    (i = .pkSeal → t.acc = s.acc ∧ t.fill = s.fill)

/-- R23: the reset values, and STATUS. -/
def Obligations.ResetValues : Prop :=
  State.reset.crc = 0x00#7 ∧ State.reset.acc = 0#120 ∧ State.reset.fill = 0#7 ∧ State.reset.out = 0#128 ∧
    State.reset.outValid = false ∧ State.reset.err = 0#2 ∧ statusWord State.reset = 0x0000#16

/-- R140: a reset writes every element with its reset value and leaves the six elements as CRC.CLR and then PK.CLR would. That
a reset is an event of the host's stream with a step of its own, and that `response` is none after it, is the model's choice
(log 1, log 7). -/
def Obligations.ResetEvent : Prop :=
  ∀ (s : State) (rest : List HostEvent), s.pending = .reset :: rest →
    ∃ t u, step s = .next t ∧ execAll [.crcClr, .pkClr] s = .next u ∧
      t.crc = 0x00#7 ∧ t.acc = 0#120 ∧ t.fill = 0#7 ∧ t.out = 0#128 ∧ t.outValid = false ∧ t.err = 0#2 ∧ t.response = none ∧
      t.crc = u.crc ∧ t.acc = u.acc ∧ t.fill = u.fill ∧ t.out = u.out ∧ t.outValid = u.outValid ∧ t.err = u.err

/-- R141: what each operation answers as the first after reset. -/
def Obligations.FirstAnswersAfterReset : Prop :=
  ∀ widths : List Nat,
    let answer (i : Instr) : Option Response :=
      match exec i (State.resetWith widths) with
      | .next t => t.response
      | .fault _ => none
      | .refused _ => none
    answer .crcClr = some ⟨0#2, .nothing⟩ ∧ (∀ b, answer (.crcBit b) = some ⟨0#2, .nothing⟩) ∧
    (∀ b, ∃ t, exec (.crcBit b) (State.resetWith widths) = .next t ∧ t.crc = crc7Step 0x00#7 b) ∧
    (∀ d, answer (.crcByte d) = some ⟨0#2, .nothing⟩) ∧ answer .crcTrl = some ⟨0#2, .trailer 0x01#8⟩ ∧
    answer .pkClr = some ⟨0#2, .nothing⟩ ∧
    (∀ w v, 1 ≤ w.toNat → w.toNat ≤ 40 → v.toNat < 2 ^ w.toNat → answer (.pkPush w v) = some ⟨0#2, .nothing⟩) ∧
    answer .pkSeal = some ⟨1#2, .nothing⟩ ∧
    (∀ i ∈ [Instr.reserved7, .reservedB, .reservedC, .reservedD, .reservedE, .reservedF],
      answer i = some ⟨2#2, .nothing⟩)

/-- R19: the fields of STATUS, and its reset value. -/
def Obligations.StatusWordLayout : Prop :=
  statusWord State.reset = 0x0000#16 ∧
  ∀ s : State,
    (statusWord s).extractLsb' 0 7 = s.fill ∧ (statusWord s).getLsbD 7 = s.outValid ∧
      (statusWord s).extractLsb' 8 2 = s.err ∧ (statusWord s).extractLsb' 10 6 = 0#6

/-- R20 at reset. -/
def Obligations.ResetMeetsInv : Prop := MachineInv State.reset

/-- R20: every step from a state that meets the invariants, faulting or not, leaves one that does. The events a step takes
are the model's choice (log 1, log 7), the idle step its reading of R135 (log 5). -/
def Obligations.StepKeepsInv : Prop :=
  ∀ s t : State, MachineInv s → step s = .next t → MachineInv t

/-- A step runs the decoded operation of the oldest command word on the state with that word taken, and an encoder with
nothing issued is idle (R12, R135; log 1, log 5). -/
def Obligations.StepRunsTheDecodedOperation : Prop :=
  (∀ (s : State) (c : CmdWord) (rest : List HostEvent) (i : Instr), s.pending = .issue c :: rest → decode c = .ok i →
    step s = exec i { s with pending := rest }) ∧
  (∀ s : State, s.pending = [] → step s = .next s)

/-- R12, R39: a stream of well-formed operations takes effect one at a time in the order issued: as many steps as operations
leave exactly what executing them in that order leaves. The stream as a field of the state is the model's choice (log 1). -/
def Obligations.StreamRunsInIssueOrder : Prop :=
  ∀ (is : List Instr) (s : State), (∀ i ∈ is, i.wellFormed = true) → s.pending = [] →
    runSteps is.length { s with pending := is.map fun i => .issue (encode i) } = execAll is s

/-- R120, R150: a step never faults and every operation completes; the machine is refused only a bit string that is no command
word, which is the model's choice (log 4), as the stream of events is (log 1, log 7). -/
def Obligations.StepStopsOnlyOnNonWords : Prop :=
  ∀ s : State,
    (∃ t, step s = .next t) ∨
    (∃ c rest why, s.pending = .issue c :: rest ∧ (∀ i, encode i = c → i.wellFormed = false) ∧
      step s = .refused (.notACommandWord why))

/-- R142: no step changes the instance's `CSD_WIDTHS` (a field by log 3). R39, in the model's stream: a step takes exactly the
oldest event (log 1); that a reset keeps the events issued after it is the model's choice (log 7), and with nothing issued the
stream stays empty (log 5). -/
def Obligations.StepKeepsTheInstance : Prop :=
  ∀ s t : State, step s = .next t → t.csdWidths = s.csdWidths ∧ t.pending = s.pending.tail
end

