-- ==== Sys2Proof/Laws/Crc.lean ====
section
/-! SUPPORT. The CRC folds over concatenations, and the byte fold is the bit fold. -/

namespace Sys2Proof.Machine

@[simp] theorem crc7Bits_nil (c : Crc) : crc7Bits c [] = c := rfl

@[simp] theorem crc7Bits_cons (c : Crc) (b : Bool) (bits : List Bool) :
    crc7Bits c (b :: bits) = crc7Bits (crc7Step c b) bits := rfl

/-- R79 L2 for bits. -/
theorem crc7Bits_append (c : Crc) (xs ys : List Bool) : crc7Bits c (xs ++ ys) = crc7Bits (crc7Bits c xs) ys :=
  List.foldl_append

/-- R79 L2 for bytes. -/
theorem crc7Bytes_append (xs ys : List Byte) : crc7Bytes (xs ++ ys) = ys.foldl crc7Byte (crc7Bytes xs) :=
  List.foldl_append

/-- The fold over bytes is the fold over their bits, each byte most significant bit first (R72). -/
theorem foldl_crc7Byte (c : Crc) (bytes : List Byte) : bytes.foldl crc7Byte c = crc7Bits c (bytes.flatMap bitsOfByte) := by
  induction bytes generalizing c with
  | nil => rfl
  | cons d bytes ih =>
    rw [List.foldl_cons, ih, List.flatMap_cons, crc7Bits_append]
    rfl

/-- The step over GF(2) is additive in register and data bit. -/
theorem crc7Step_xor (c₁ c₂ : Crc) (a b : Bool) :
    crc7Step (c₁ ^^^ c₂) (a ^^ b) = crc7Step c₁ a ^^^ crc7Step c₂ b := by
  have hs : (c₁ ^^^ c₂) <<< 1 = (c₁ <<< 1) ^^^ (c₂ <<< 1) := by
    ext i
    simp
    grind
  unfold crc7Step
  simp only [BitVec.getLsbD_xor, hs]
  generalize c₁.getLsbD 6 = x, c₂.getLsbD 6 = y, c₁ <<< 1 = u, c₂ <<< 1 = v
  ext i hi
  cases x <;> cases y <;> cases a <;> cases b <;> simp <;> grind

end Sys2Proof.Machine
end

