-- ==== Sys2Proof/Laws/Decode.lean ====
section
/-! SUPPORT. Reading fields out of concatenated words, and the decoder in two cases. -/

namespace Sys2Proof

/-! ### Fields of a concatenation -/

theorem extract_append_high {n m : Nat} (x : BitVec n) (y : BitVec m) (lo w : Nat) (h : m ≤ lo) :
    (x ++ y).extractLsb' lo w = x.extractLsb' (lo - m) w := by
  ext i hi
  rw [BitVec.getElem_extractLsb', BitVec.getElem_extractLsb', BitVec.getLsbD_append, if_neg (by omega)]
  congr 1
  omega

theorem extract_append_low {n m : Nat} (x : BitVec n) (y : BitVec m) (lo w : Nat) (h : lo + w ≤ m) :
    (x ++ y).extractLsb' lo w = y.extractLsb' lo w := by
  ext i hi
  rw [BitVec.getElem_extractLsb', BitVec.getElem_extractLsb', BitVec.getLsbD_append, if_pos (by omega)]

theorem extract_whole {n : Nat} (x : BitVec n) : x.extractLsb' 0 n = x := by
  ext i hi
  simp

theorem append_extract_op {n : Nat} (x : BitVec (n + 4)) : x.extractLsb' 4 n ++ x.extractLsb' 0 4 = x := by
  ext i hi
  rw [BitVec.getElem_append]
  split_ifs with h4
  · rw [BitVec.getElem_extractLsb', Nat.zero_add, BitVec.getLsbD_eq_getElem]
  · rw [BitVec.getElem_extractLsb', show 4 + (i - 4) = i by omega, BitVec.getLsbD_eq_getElem]

/-! ### Operands -/

/-- An operand field read as a number fits its width. -/
theorem field_fits (c : CmdWord) (lo w : Nat) : fitsBits w (c.field lo w) = true := by
  have := (c.bits.extractLsb' lo w).isLt
  simp only [fitsBits, Bool.and_eq_true, decide_eq_true_eq]
  unfold CmdWord.field
  exact ⟨Int.natCast_nonneg _, by exact_mod_cast this⟩

/-- An operand that fits its width is read back from its field. -/
theorem toNat_ofInt_of_fits {w : Nat} {x : Int} (h : fitsBits w x = true) : ((BitVec.ofInt w x).toNat : Int) = x := by
  simp only [fitsBits, Bool.and_eq_true, decide_eq_true_eq] at h
  rw [BitVec.toNat_ofInt, Int.toNat_of_nonneg (Int.emod_nonneg _ (by positivity))]
  exact Int.emod_eq_of_lt h.1 (by exact_mod_cast h.2)

/-! ### The decoder -/

theorem op_lt (c : CmdWord) : c.op < 16 := (c.bits.extractLsb' 0 4).isLt

/-- A word of its proper length is decoded by its operation code. -/
theorem decode_proper {c : CmdWord} (h4 : 4 ≤ c.len) (h : c.len = c.properLength) : decode c = decodeOp c := by
  unfold decode
  rw [if_neg (by omega), if_pos h]

/-- Only a word of its proper length decodes. -/
theorem proper_of_decode {c : CmdWord} {i : Instr} (h : decode c = .ok i) :
    4 ≤ c.len ∧ c.len = c.properLength ∧ decodeOp c = .ok i := by
  unfold decode at h
  split_ifs at h with h1 h2
  exact ⟨by omega, h2, h⟩

/-- Every one of the sixteen codes has an operation. -/
theorem decodeOp_total (c : CmdWord) : ∃ i, decodeOp c = .ok i := by
  have := op_lt c
  unfold decodeOp
  generalize c.op = n at *
  interval_cases n <;> exact ⟨_, rfl⟩

end Sys2Proof
end

