-- ==== Sys2Proof/Laws/State.lean ====
section
/-! SUPPORT. One lemma per field per shared update of the state. -/

namespace Sys2Proof.Machine

/-! ### respond -/

@[simp] theorem respond_crc (k : Code) (d : ResponseData) (s : State) : (respond k d s).crc = s.crc := rfl
@[simp] theorem respond_acc (k : Code) (d : ResponseData) (s : State) : (respond k d s).acc = s.acc := rfl
@[simp] theorem respond_fill (k : Code) (d : ResponseData) (s : State) : (respond k d s).fill = s.fill := rfl
@[simp] theorem respond_out (k : Code) (d : ResponseData) (s : State) : (respond k d s).out = s.out := rfl
@[simp] theorem respond_outValid (k : Code) (d : ResponseData) (s : State) : (respond k d s).outValid = s.outValid := rfl
@[simp] theorem respond_err (k : Code) (d : ResponseData) (s : State) : (respond k d s).err = s.err := rfl
@[simp] theorem respond_response (k : Code) (d : ResponseData) (s : State) : (respond k d s).response = some ⟨k, d⟩ := rfl
@[simp] theorem respond_pending (k : Code) (d : ResponseData) (s : State) : (respond k d s).pending = s.pending := rfl
@[simp] theorem respond_csdWidths (k : Code) (d : ResponseData) (s : State) : (respond k d s).csdWidths = s.csdWidths := rfl

/-! ### raise -/

@[simp] theorem raise_crc (k : Code) (s : State) : (raise k s).crc = s.crc := rfl
@[simp] theorem raise_acc (k : Code) (s : State) : (raise k s).acc = s.acc := rfl
@[simp] theorem raise_fill (k : Code) (s : State) : (raise k s).fill = s.fill := rfl
@[simp] theorem raise_out (k : Code) (s : State) : (raise k s).out = s.out := rfl
@[simp] theorem raise_outValid (k : Code) (s : State) : (raise k s).outValid = s.outValid := rfl
@[simp] theorem raise_err (k : Code) (s : State) : (raise k s).err = k := rfl
@[simp] theorem raise_response (k : Code) (s : State) : (raise k s).response = some ⟨k, .nothing⟩ := rfl
@[simp] theorem raise_pending (k : Code) (s : State) : (raise k s).pending = s.pending := rfl
@[simp] theorem raise_csdWidths (k : Code) (s : State) : (raise k s).csdWidths = s.csdWidths := rfl

/-! ### answerPending -/

@[simp] theorem answerPending_crc (s : State) : (answerPending s).crc = s.crc := rfl
@[simp] theorem answerPending_acc (s : State) : (answerPending s).acc = s.acc := rfl
@[simp] theorem answerPending_fill (s : State) : (answerPending s).fill = s.fill := rfl
@[simp] theorem answerPending_out (s : State) : (answerPending s).out = s.out := rfl
@[simp] theorem answerPending_outValid (s : State) : (answerPending s).outValid = s.outValid := rfl
@[simp] theorem answerPending_err (s : State) : (answerPending s).err = s.err := rfl
@[simp] theorem answerPending_response (s : State) : (answerPending s).response = some ⟨s.err, .nothing⟩ := rfl
@[simp] theorem answerPending_pending (s : State) : (answerPending s).pending = s.pending := rfl
@[simp] theorem answerPending_csdWidths (s : State) : (answerPending s).csdWidths = s.csdWidths := rfl

/-! ### clearPacker -/

@[simp] theorem clearPacker_crc (s : State) : (clearPacker s).crc = s.crc := rfl
@[simp] theorem clearPacker_acc (s : State) : (clearPacker s).acc = 0#120 := rfl
@[simp] theorem clearPacker_fill (s : State) : (clearPacker s).fill = 0#7 := rfl
@[simp] theorem clearPacker_out (s : State) : (clearPacker s).out = 0#128 := rfl
@[simp] theorem clearPacker_outValid (s : State) : (clearPacker s).outValid = false := rfl
@[simp] theorem clearPacker_err (s : State) : (clearPacker s).err = 0#2 := rfl
@[simp] theorem clearPacker_response (s : State) : (clearPacker s).response = s.response := rfl
@[simp] theorem clearPacker_pending (s : State) : (clearPacker s).pending = s.pending := rfl
@[simp] theorem clearPacker_csdWidths (s : State) : (clearPacker s).csdWidths = s.csdWidths := rfl

/-! ### applyReset -/

@[simp] theorem applyReset_crc (s : State) : (applyReset s).crc = 0x00#7 := rfl
@[simp] theorem applyReset_acc (s : State) : (applyReset s).acc = 0#120 := rfl
@[simp] theorem applyReset_fill (s : State) : (applyReset s).fill = 0#7 := rfl
@[simp] theorem applyReset_out (s : State) : (applyReset s).out = 0#128 := rfl
@[simp] theorem applyReset_outValid (s : State) : (applyReset s).outValid = false := rfl
@[simp] theorem applyReset_err (s : State) : (applyReset s).err = 0#2 := rfl
@[simp] theorem applyReset_response (s : State) : (applyReset s).response = none := rfl
@[simp] theorem applyReset_pending (s : State) : (applyReset s).pending = s.pending := rfl
@[simp] theorem applyReset_csdWidths (s : State) : (applyReset s).csdWidths = s.csdWidths := rfl

/-! ### sealAcc -/

@[simp] theorem sealAcc_crc (s : State) : (sealAcc s).crc = crc7Bytes (payloadBytes s.acc) := rfl
@[simp] theorem sealAcc_acc (s : State) : (sealAcc s).acc = s.acc := rfl
@[simp] theorem sealAcc_fill (s : State) : (sealAcc s).fill = s.fill := rfl
@[simp] theorem sealAcc_out (s : State) : (sealAcc s).out = sealPayload s.acc := rfl
@[simp] theorem sealAcc_outValid (s : State) : (sealAcc s).outValid = true := rfl
@[simp] theorem sealAcc_err (s : State) : (sealAcc s).err = s.err := rfl
@[simp] theorem sealAcc_response (s : State) : (sealAcc s).response = some ⟨0#2, .register (registerBytes (sealPayload s.acc))⟩ := rfl
@[simp] theorem sealAcc_pending (s : State) : (sealAcc s).pending = s.pending := rfl
@[simp] theorem sealAcc_csdWidths (s : State) : (sealAcc s).csdWidths = s.csdWidths := rfl

/-! ### encodePayload -/

@[simp] theorem encodePayload_crc (a : Payload) (s : State) : (encodePayload a s).crc = crc7Bytes (payloadBytes a) := rfl
@[simp] theorem encodePayload_acc (a : Payload) (s : State) : (encodePayload a s).acc = a := rfl
@[simp] theorem encodePayload_fill (a : Payload) (s : State) : (encodePayload a s).fill = 120#7 := rfl
@[simp] theorem encodePayload_out (a : Payload) (s : State) : (encodePayload a s).out = sealPayload a := rfl
@[simp] theorem encodePayload_outValid (a : Payload) (s : State) : (encodePayload a s).outValid = true := rfl
@[simp] theorem encodePayload_err (a : Payload) (s : State) : (encodePayload a s).err = 0#2 := rfl
@[simp] theorem encodePayload_response (a : Payload) (s : State) : (encodePayload a s).response = some ⟨0#2, .register (registerBytes (sealPayload a))⟩ := rfl
@[simp] theorem encodePayload_pending (a : Payload) (s : State) : (encodePayload a s).pending = s.pending := rfl
@[simp] theorem encodePayload_csdWidths (a : Payload) (s : State) : (encodePayload a s).csdWidths = s.csdWidths := rfl

/-! ### placeNext -/

@[simp] theorem placeNext_crc (c : CmdWord) (s : State) : (placeNext c s).crc = s.crc := rfl
@[simp] theorem placeNext_acc (c : CmdWord) (s : State) : (placeNext c s).acc = s.acc := rfl
@[simp] theorem placeNext_fill (c : CmdWord) (s : State) : (placeNext c s).fill = s.fill := rfl
@[simp] theorem placeNext_out (c : CmdWord) (s : State) : (placeNext c s).out = s.out := rfl
@[simp] theorem placeNext_outValid (c : CmdWord) (s : State) : (placeNext c s).outValid = s.outValid := rfl
@[simp] theorem placeNext_err (c : CmdWord) (s : State) : (placeNext c s).err = s.err := rfl
@[simp] theorem placeNext_response (c : CmdWord) (s : State) : (placeNext c s).response = s.response := rfl
@[simp] theorem placeNext_pending (c : CmdWord) (s : State) : (placeNext c s).pending = .issue c :: s.pending := rfl
@[simp] theorem placeNext_csdWidths (c : CmdWord) (s : State) : (placeNext c s).csdWidths = s.csdWidths := rfl

/-! ### hostIssue -/

@[simp] theorem hostIssue_crc (c : CmdWord) (s : State) : (hostIssue c s).crc = s.crc := rfl
@[simp] theorem hostIssue_acc (c : CmdWord) (s : State) : (hostIssue c s).acc = s.acc := rfl
@[simp] theorem hostIssue_fill (c : CmdWord) (s : State) : (hostIssue c s).fill = s.fill := rfl
@[simp] theorem hostIssue_out (c : CmdWord) (s : State) : (hostIssue c s).out = s.out := rfl
@[simp] theorem hostIssue_outValid (c : CmdWord) (s : State) : (hostIssue c s).outValid = s.outValid := rfl
@[simp] theorem hostIssue_err (c : CmdWord) (s : State) : (hostIssue c s).err = s.err := rfl
@[simp] theorem hostIssue_response (c : CmdWord) (s : State) : (hostIssue c s).response = s.response := rfl
@[simp] theorem hostIssue_pending (c : CmdWord) (s : State) : (hostIssue c s).pending = s.pending ++ [.issue c] := rfl
@[simp] theorem hostIssue_csdWidths (c : CmdWord) (s : State) : (hostIssue c s).csdWidths = s.csdWidths := rfl

/-! ### The state after reset -/

@[simp] theorem resetWith_crc (widths : List Nat) : (State.resetWith widths).crc = 0x00#7 := rfl
@[simp] theorem resetWith_acc (widths : List Nat) : (State.resetWith widths).acc = 0#120 := rfl
@[simp] theorem resetWith_fill (widths : List Nat) : (State.resetWith widths).fill = 0#7 := rfl
@[simp] theorem resetWith_out (widths : List Nat) : (State.resetWith widths).out = 0#128 := rfl
@[simp] theorem resetWith_outValid (widths : List Nat) : (State.resetWith widths).outValid = false := rfl
@[simp] theorem resetWith_err (widths : List Nat) : (State.resetWith widths).err = 0#2 := rfl
@[simp] theorem resetWith_response (widths : List Nat) : (State.resetWith widths).response = none := rfl
@[simp] theorem resetWith_pending (widths : List Nat) : (State.resetWith widths).pending = [] := rfl
@[simp] theorem resetWith_csdWidths (widths : List Nat) : (State.resetWith widths).csdWidths = widths := rfl

theorem reset_eq : State.reset = State.resetWith Config.instanceWidths := rfl

end Sys2Proof.Machine
end

