-- ==== Sys2Proof/Laws/Exec.lean ====
section
/-! SUPPORT. What each meaning with more than one outcome can do, said once; that every operation completes; what a step can do. -/

namespace Sys2Proof.Machine

/-- The conditions under which PK.PUSH appends (R93). -/
abbrev PushAccepted (w : BitVec 6) (v : BitVec 40) (s : State) : Prop :=
  1 ≤ w.toNat ∧ w.toNat ≤ 40 ∧ v.toNat < 2 ^ w.toNat ∧ s.fill.toNat + w.toNat ≤ 120

/-- The state after an accepted push. -/
abbrev pushed (w : BitVec 6) (v : BitVec 40) (s : State) : State :=
  respond codeOk .nothing { s with acc := pushedAcc s.acc w v, fill := BitVec.ofNat 7 (s.fill.toNat + w.toNat) }

theorem execPkPush_cases {w : BitVec 6} {v : BitVec 40} {s t : State} (h : exec (.pkPush w v) s = .next t) :
    (s.err ≠ 0#2 ∧ t = answerPending s) ∨ (s.err = 0#2 ∧ ¬PushAccepted w v s ∧ t = raise 1#2 s) ∨
      (s.err = 0#2 ∧ PushAccepted w v s ∧ t = pushed w v s) := by
  simp only [exec, execPkPush, Host.Outcome.next.injEq] at h
  subst h
  by_cases he : s.err = 0#2
  · by_cases hp : PushAccepted w v s
    · obtain ⟨h1, h2, h3, h4⟩ := hp
      simp [he, pushWidthOk, fieldFits, roomLeft, h1, h2, h3, h4, PushAccepted, pushed]
    · refine .inr (.inl ⟨he, hp, ?_⟩)
      simp only [he, codeOk, ne_eq, not_true_eq_false, if_false, codeInvalidFieldWidth, pushWidthOk, fieldFits, roomLeft,
        Config.wMax, Config.payloadBits]
      split_ifs <;> first | rfl | (exfalso; apply hp; simp_all [PushAccepted]; omega)
  · simp [he]

theorem execPkPush_accepted {w : BitVec 6} {v : BitVec 40} {s : State} (he : s.err = 0#2) (hp : PushAccepted w v s) :
    exec (.pkPush w v) s = .next (pushed w v s) := by
  obtain ⟨h1, h2, h3, h4⟩ := hp
  simp [exec, execPkPush, he, pushWidthOk, fieldFits, roomLeft, h1, h2, h3, h4, pushed]

theorem execPkSeal_cases {s t : State} (h : exec .pkSeal s = .next t) :
    (s.err ≠ 0#2 ∧ t = answerPending s) ∨ (s.err = 0#2 ∧ s.fill.toNat ≠ 120 ∧ t = raise 1#2 s) ∨
      (s.err = 0#2 ∧ s.fill.toNat = 120 ∧ t = sealAcc s) := by
  simp only [exec, execPkSeal, Host.Outcome.next.injEq] at h
  subst h
  by_cases he : s.err = 0#2 <;> by_cases hf : s.fill.toNat = 120 <;> simp [he, hf]

theorem execEncCid_cases {o : CidOperands} {s t : State} (h : exec (.encCid o) s = .next t) :
    (cidOperandsOk o = true ∧ t = encodePayload (cidPayload o) s) ∨ (cidOperandsOk o = false ∧ t = raise 1#2 s) := by
  simp only [exec, execEncCid, Host.Outcome.next.injEq] at h
  subst h
  cases cidOperandsOk o <;> simp

theorem execEncCsd_cases {fields : List CsdField} {s t : State} (h : exec (.encCsd fields) s = .next t) :
    (csdOperandsOk s.csdWidths fields = true ∧ t = encodePayload (csdPayload fields) s) ∨
      (csdOperandsOk s.csdWidths fields = false ∧ t = raise 1#2 s) := by
  simp only [exec, execEncCsd, Host.Outcome.next.injEq] at h
  subst h
  cases csdOperandsOk s.csdWidths fields <;> simp

/-- Every operation completes: no meaning faults or refuses. -/
theorem exec_completes (i : Instr) (s : State) : ∃ t, exec i s = .next t := by
  cases i <;> exact ⟨_, rfl⟩

/-- All an operation can do to the state, over all operations: answer only, write `crc`, clear the packer, push, seal, encode,
or raise. -/
theorem exec_cases {i : Instr} {s t : State} (h : exec i s = .next t) :
    (∃ k d, t = respond k d s) ∨ (∃ c d, t = respond 0#2 d { s with crc := c }) ∨
      t = respond 0#2 .nothing (clearPacker s) ∨
      (∃ w v, s.err = 0#2 ∧ PushAccepted w v s ∧ t = pushed w v s) ∨
      (s.err = 0#2 ∧ s.fill.toNat = 120 ∧ t = sealAcc s) ∨ (∃ a, t = encodePayload a s) ∨
      (∃ k, (k = 1#2 ∨ k = 2#2) ∧ t = raise k s) := by
  cases i with
  | crcClr => exact .inr (.inl ⟨_, _, by simpa [exec, execCrcClr] using h.symm⟩)
  | crcBit b => exact .inr (.inl ⟨_, _, by simpa [exec, execCrcBit] using h.symm⟩)
  | crcByte d => exact .inr (.inl ⟨_, _, by simpa [exec, execCrcByte] using h.symm⟩)
  | crcTrl => exact .inl ⟨_, _, by simpa [exec, execCrcTrl] using h.symm⟩
  | pkClr => exact .inr (.inr (.inl (by simpa [exec, execPkClr] using h.symm)))
  | pkPush w v =>
    rcases execPkPush_cases h with ⟨-, rfl⟩ | ⟨-, -, rfl⟩ | ⟨he, hp, rfl⟩
    · exact .inl ⟨_, _, rfl⟩
    · exact .inr (.inr (.inr (.inr (.inr (.inr ⟨_, .inl rfl, rfl⟩)))))
    · exact .inr (.inr (.inr (.inl ⟨w, v, he, hp, rfl⟩)))
  | pkSeal =>
    rcases execPkSeal_cases h with ⟨-, rfl⟩ | ⟨-, -, rfl⟩ | ⟨he, hf, rfl⟩
    · exact .inl ⟨_, _, rfl⟩
    · exact .inr (.inr (.inr (.inr (.inr (.inr ⟨_, .inl rfl, rfl⟩)))))
    · exact .inr (.inr (.inr (.inr (.inl ⟨he, hf, rfl⟩))))
  | encCid o =>
    rcases execEncCid_cases h with ⟨-, rfl⟩ | ⟨-, rfl⟩
    · exact .inr (.inr (.inr (.inr (.inr (.inl ⟨_, rfl⟩)))))
    · exact .inr (.inr (.inr (.inr (.inr (.inr ⟨_, .inl rfl, rfl⟩)))))
  | encCsd fields =>
    rcases execEncCsd_cases h with ⟨-, rfl⟩ | ⟨-, rfl⟩
    · exact .inr (.inr (.inr (.inr (.inr (.inl ⟨_, rfl⟩)))))
    · exact .inr (.inr (.inr (.inr (.inr (.inr ⟨_, .inl rfl, rfl⟩)))))
  | crcTrailer bytes => exact .inr (.inl ⟨_, _, by simpa [exec, execCrcTrailer] using h.symm⟩)
  | reserved7 => exact .inr (.inr (.inr (.inr (.inr (.inr ⟨2#2, .inr rfl, by simpa [exec, execReserved7] using h.symm⟩)))))
  | reservedB => exact .inr (.inr (.inr (.inr (.inr (.inr ⟨2#2, .inr rfl, by simpa [exec, execReservedB] using h.symm⟩)))))
  | reservedC => exact .inr (.inr (.inr (.inr (.inr (.inr ⟨2#2, .inr rfl, by simpa [exec, execReservedC] using h.symm⟩)))))
  | reservedD => exact .inr (.inr (.inr (.inr (.inr (.inr ⟨2#2, .inr rfl, by simpa [exec, execReservedD] using h.symm⟩)))))
  | reservedE => exact .inr (.inr (.inr (.inr (.inr (.inr ⟨2#2, .inr rfl, by simpa [exec, execReservedE] using h.symm⟩)))))
  | reservedF => exact .inr (.inr (.inr (.inr (.inr (.inr ⟨2#2, .inr rfl, by simpa [exec, execReservedF] using h.symm⟩)))))

/-- All a step can do. -/
theorem step_cases {s t : State} (h : step s = .next t) :
    (s.pending = [] ∧ t = s) ∨
      (∃ rest, s.pending = .reset :: rest ∧ t = applyReset { s with pending := rest }) ∨
      (∃ c rest i, s.pending = .issue c :: rest ∧ decode c = .ok i ∧ exec i { s with pending := rest } = .next t) := by
  unfold step takeEvent at h
  rcases hp : s.pending with _ | ⟨e, rest⟩
  · simp only [hp] at h
    exact .inl ⟨rfl, by simpa using h.symm⟩
  · cases e with
    | reset =>
      simp only [hp] at h
      exact .inr (.inl ⟨rest, rfl, by simpa using h.symm⟩)
    | issue c =>
      simp only [hp] at h
      rcases hd : decode c with i | why
      · simp only [hd] at h
        exact .inr (.inr ⟨c, rest, i, rfl, hd, h⟩)
      · simp [hd] at h

/-! ### Runs -/

@[simp] theorem execAll_nil (s : State) : execAll [] s = .next s := rfl

theorem execAll_cons {i : Instr} {s t : State} (h : exec i s = .next t) (is : List Instr) :
    execAll (i :: is) s = execAll is t := by
  simp [execAll, h]

theorem execAll_completes (is : List Instr) (s : State) : ∃ t, execAll is s = .next t := by
  induction is generalizing s with
  | nil => exact ⟨s, rfl⟩
  | cons i is ih =>
    obtain ⟨t, ht⟩ := exec_completes i s
    rw [execAll_cons ht]
    exact ih t

theorem execAll_append (is js : List Instr) (s : State) {t : State} (h : execAll is s = .next t) :
    execAll (is ++ js) s = execAll js t := by
  induction is generalizing s with
  | nil =>
    simp only [execAll_nil, Host.Outcome.next.injEq] at h
    rw [h]
    rfl
  | cons i is ih =>
    obtain ⟨u, hu⟩ := exec_completes i s
    rw [execAll_cons hu] at h
    rw [List.cons_append, execAll_cons hu]
    exact ih u h

end Sys2Proof.Machine
end

