-- ==== Sys2Proof/Laws/Packer.lean ====
section
/-! SUPPORT. The packer's function: what `pack` of a concatenation is, its bound, and what stands at a field's place. -/

namespace Sys2Proof.Machine

/-- Every value of the list fits its width. -/
def AllFit (fields : List (Nat × Nat)) : Prop := ∀ f ∈ fields, f.2 < 2 ^ f.1

/-- The total width. -/
def totalWidth (fields : List (Nat × Nat)) : Nat := (fields.map Prod.fst).sum

@[simp] theorem totalWidth_nil : totalWidth [] = 0 := rfl

@[simp] theorem totalWidth_cons (f : Nat × Nat) (fs : List (Nat × Nat)) : totalWidth (f :: fs) = f.1 + totalWidth fs := by
  simp [totalWidth]

@[simp] theorem totalWidth_append (xs ys : List (Nat × Nat)) : totalWidth (xs ++ ys) = totalWidth xs + totalWidth ys := by
  simp [totalWidth]

theorem AllFit.append_left {xs ys : List (Nat × Nat)} (h : AllFit (xs ++ ys)) : AllFit xs :=
  fun f hf => h f (List.mem_append_left _ hf)

theorem AllFit.append_right {xs ys : List (Nat × Nat)} (h : AllFit (xs ++ ys)) : AllFit ys :=
  fun f hf => h f (List.mem_append_right _ hf)

@[simp] theorem pack_nil : pack [] = (0, 0) := rfl

/-- Pushing one more field at the end (R90). -/
theorem pack_snoc (xs : List (Nat × Nat)) (f : Nat × Nat) : pack (xs ++ [f]) = pushFn (pack xs) f := by
  simp [pack]

/-- On a fitting value the shift and OR are a multiplication and a sum. -/
theorem pushFn_fst {a w v : Nat} (n : Nat) (h : v < 2 ^ w) : (pushFn (a, n) (w, v)).1 = a * 2 ^ w + v := by
  simp only [pushFn, Nat.shiftLeft_eq]
  rw [Nat.mul_comm, Nat.two_pow_add_eq_or_of_lt h]

theorem pack_snd (xs : List (Nat × Nat)) : (pack xs).2 = totalWidth xs := by
  induction xs using List.reverseRecOn with
  | nil => rfl
  | append_singleton xs f ih => rw [pack_snoc, pushFn, ih, totalWidth_append]; simp

/-- The concatenation of a concatenation. -/
theorem pack_append_fst (xs ys : List (Nat × Nat)) (h : AllFit ys) :
    (pack (xs ++ ys)).1 = (pack xs).1 * 2 ^ totalWidth ys + (pack ys).1 := by
  induction ys using List.reverseRecOn with
  | nil => simp
  | append_singleton ys f ih =>
    obtain ⟨w, v⟩ := f
    have hf : v < 2 ^ w := h (w, v) (by simp)
    have hfst : ∀ zs : List (Nat × Nat), (pack (zs ++ [(w, v)])).1 = (pack zs).1 * 2 ^ w + v := fun zs => by
      rw [pack_snoc]
      exact pushFn_fst _ hf
    rw [← List.append_assoc, hfst, hfst, ih h.append_left]
    simp only [totalWidth_append, totalWidth_cons, totalWidth_nil, pow_add, pow_zero]
    ring

/-- A concatenation of fitting fields fits the total width. -/
theorem pack_lt (xs : List (Nat × Nat)) (h : AllFit xs) : (pack xs).1 < 2 ^ totalWidth xs := by
  induction xs using List.reverseRecOn with
  | nil => simp
  | append_singleton xs f ih =>
    have hf : AllFit [f] := h.append_right
    have hv : f.2 < 2 ^ f.1 := hf f (by simp)
    have hx := ih h.append_left
    rw [pack_append_fst xs [f] hf, totalWidth_append]
    simp only [totalWidth_cons, totalWidth_nil, Nat.add_zero, pow_add]
    have h1 : (pack [f]).1 = f.2 := by simp [pack, pushFn]
    rw [h1]
    have h2 : ((pack xs).1 + 1) * 2 ^ f.1 ≤ 2 ^ totalWidth xs * 2 ^ f.1 := Nat.mul_le_mul_right _ hx
    rw [Nat.add_mul] at h2
    omega

/-- What stands at the place of a field: below it only the later fields, so their total width is its lowest bit. -/
theorem pack_field_at (xs ys : List (Nat × Nat)) (f : Nat × Nat) (h : AllFit (xs ++ f :: ys)) :
    (pack (xs ++ f :: ys)).1 / 2 ^ totalWidth ys % 2 ^ f.1 = f.2 := by
  have hfy : AllFit (f :: ys) := h.append_right
  have hy : AllFit ys := fun g hg => hfy g (List.mem_cons_of_mem _ hg)
  have hv : f.2 < 2 ^ f.1 := hfy f (by simp)
  have e1 : (pack (xs ++ f :: ys)).1 = (pack (xs ++ [f])).1 * 2 ^ totalWidth ys + (pack ys).1 := by
    rw [show xs ++ f :: ys = (xs ++ [f]) ++ ys by simp, pack_append_fst _ _ hy]
  have e2 : (pack (xs ++ [f])).1 = (pack xs).1 * 2 ^ f.1 + f.2 := by
    rw [pack_snoc]
    exact pushFn_fst _ hv
  rw [e1, Nat.mul_comm, Nat.mul_add_div (by positivity), Nat.div_eq_of_lt (pack_lt ys hy), e2, Nat.add_zero,
    Nat.add_comm, Nat.add_mul_mod_self_right, Nat.mod_eq_of_lt hv]

/-- Two lists of the same widths and with the same concatenation have the same values. -/
theorem pack_injective (xs ys : List (Nat × Nat)) (hw : xs.map Prod.fst = ys.map Prod.fst) (hx : AllFit xs) (hy : AllFit ys)
    (h : (pack xs).1 = (pack ys).1) : xs = ys := by
  induction xs using List.reverseRecOn generalizing ys with
  | nil => simpa using hw
  | append_singleton xs f ih =>
    rcases List.eq_nil_or_concat ys with rfl | ⟨zs, g, rfl⟩
    · simp at hw
    · simp only [List.concat_eq_append, List.map_append, List.map_cons, List.map_nil] at hw hy h ⊢
      obtain ⟨h1, h2⟩ := List.append_inj' hw rfl
      simp only [List.cons.injEq, and_true] at h2
      have hf : f.2 < 2 ^ f.1 := hx f (by simp)
      have hg : g.2 < 2 ^ f.1 := h2 ▸ hy g (by simp)
      rw [pack_append_fst _ _ hx.append_right, pack_append_fst _ _ hy.append_right] at h
      simp only [totalWidth_cons, totalWidth_nil, Nat.add_zero, ← h2] at h
      have s1 : ∀ e : Nat × Nat, (pack [e]).1 = e.2 := fun e => by simp [pack, pushFn]
      rw [s1, s1] at h
      have hv : f.2 = g.2 := by
        have := congrArg (· % 2 ^ f.1) h
        simpa [Nat.mod_eq_of_lt hf, Nat.mod_eq_of_lt hg] using this
      have hp : (pack xs).1 = (pack zs).1 := by
        rw [hv] at h
        exact Nat.eq_of_mul_eq_mul_right (by positivity) (Nat.add_right_cancel h)
      rw [ih zs h1 hx.append_left hy.append_left hp]
      congr 2
      exact Prod.ext h2 hv

/-- The barrel shift of an accumulator within its fill loses no bit (R97). -/
theorem pushedAcc_toNat {a : Payload} {w : BitVec 6} {v : BitVec 40} {fill : Nat} (hv : v.toNat < 2 ^ w.toNat)
    (ha : a.toNat < 2 ^ fill) (hf : fill + w.toNat ≤ 120) :
    (pushedAcc a w v).toNat = a.toNat * 2 ^ w.toNat + v.toNat := by
  have h1 : a.toNat <<< w.toNat < 2 ^ 120 := by
    rw [Nat.shiftLeft_eq]
    calc a.toNat * 2 ^ w.toNat < 2 ^ fill * 2 ^ w.toNat := Nat.mul_lt_mul_of_pos_right ha (by positivity)
      _ = 2 ^ (fill + w.toNat) := (pow_add 2 _ _).symm
      _ ≤ 2 ^ 120 := Nat.pow_le_pow_right (by norm_num) hf
  have h2 : v.toNat < 2 ^ 120 := lt_of_lt_of_le v.isLt (by norm_num)
  rw [pushedAcc, BitVec.toNat_or, BitVec.toNat_shiftLeft, BitVec.toNat_setWidth, Nat.mod_eq_of_lt h1, Nat.mod_eq_of_lt h2,
    Nat.shiftLeft_eq, Nat.mul_comm, Nat.two_pow_add_eq_or_of_lt hv]

end Sys2Proof.Machine
end

