-- ==== Sys2Proof/Laws/PerInstr.lean ====
section
/-! SUPPORT. The family EncodedWord: the word of every well-formed operation carries the code of its row and has the length
of its format (R50, R57, R60). -/

namespace Sys2Proof.Laws

/-- The row's `match` in the opcode table. -/
def tableCode : Instr → BitVec 4
  | .crcClr => 0x0#4
  | .crcBit _ => 0x1#4
  | .crcByte _ => 0x2#4
  | .crcTrl => 0x3#4
  | .pkClr => 0x4#4
  | .pkPush _ _ => 0x5#4
  | .pkSeal => 0x6#4
  | .reserved7 => 0x7#4
  | .encCid _ => 0x8#4
  | .encCsd _ => 0x9#4
  | .crcTrailer _ => 0xA#4
  | .reservedB => 0xB#4
  | .reservedC => 0xC#4
  | .reservedD => 0xD#4
  | .reservedE => 0xE#4
  | .reservedF => 0xF#4

/-- The row's `length_bits` in the opcode table. -/
def tableLength : Instr → Nat
  | .crcClr => 4
  | .crcBit _ => 5
  | .crcByte _ => 12
  | .crcTrl => 4
  | .pkClr => 4
  | .pkPush _ _ => 50
  | .pkSeal => 4
  | .reserved7 => 4
  | .encCid _ => 123
  | .encCsd _ => 1292
  | .crcTrailer bytes => 20 + 8 * bytes.length
  | .reservedB => 4
  | .reservedC => 4
  | .reservedD => 4
  | .reservedE => 4
  | .reservedF => 4

namespace EncodedWord

def Statement (i : Instr) : Prop :=
  i.wellFormed = true → (encode i).bits.extractLsb' 0 4 = tableCode i ∧ (encode i).len = tableLength i

theorem crcClr : Statement .crcClr := fun _ => ⟨rfl, rfl⟩

theorem crcBit (b : Bool) : Statement (.crcBit b) := fun _ =>
  ⟨(extract_append_low (BitVec.ofBool b) 0x1#4 0 4 (by omega)).trans (extract_whole _), rfl⟩

theorem crcByte (d : Byte) : Statement (.crcByte d) := fun _ =>
  ⟨(extract_append_low d 0x2#4 0 4 (by omega)).trans (extract_whole _), rfl⟩

theorem crcTrl : Statement .crcTrl := fun _ => ⟨rfl, rfl⟩

theorem pkClr : Statement .pkClr := fun _ => ⟨rfl, rfl⟩

theorem pkPush (w : BitVec 6) (v : BitVec 40) : Statement (.pkPush w v) := fun _ =>
  ⟨(extract_append_low (w ++ v) 0x5#4 0 4 (by omega)).trans (extract_whole _), rfl⟩

theorem pkSeal : Statement .pkSeal := fun _ => ⟨rfl, rfl⟩

theorem encCid (o : CidOperands) : Statement (.encCid o) := fun _ =>
  ⟨(extract_append_low _ 0x8#4 0 4 (by omega)).trans (extract_whole _), rfl⟩

theorem encCsd (fields : List CsdField) : Statement (.encCsd fields) := fun _ =>
  ⟨(extract_append_low (BitVec.ofNat 1288 (slotsNat fields)) 0x9#4 0 4 (by omega)).trans (extract_whole _), rfl⟩

theorem crcTrailer (bytes : List Byte) : Statement (.crcTrailer bytes) := fun _ => by
  refine ⟨?_, rfl⟩
  show (BitVec.ofNat (20 + 8 * bytes.length) _).extractLsb' 0 4 = 0xA#4
  ext i hi
  have hlt : i < 20 + 8 * bytes.length := by omega
  rw [BitVec.getElem_extractLsb', BitVec.getLsbD_ofNat, Nat.zero_add]
  simp only [hlt, decide_true, Bool.true_and, Nat.testBit_or, Nat.testBit_shiftLeft]
  interval_cases i <;> simp <;> rfl

theorem reserved7 : Statement .reserved7 := fun _ => ⟨rfl, rfl⟩

theorem reservedB : Statement .reservedB := fun _ => ⟨rfl, rfl⟩

theorem reservedC : Statement .reservedC := fun _ => ⟨rfl, rfl⟩

theorem reservedD : Statement .reservedD := fun _ => ⟨rfl, rfl⟩

theorem reservedE : Statement .reservedE := fun _ => ⟨rfl, rfl⟩

theorem reservedF : Statement .reservedF := fun _ => ⟨rfl, rfl⟩

end EncodedWord

end Sys2Proof.Laws
end

