-- ==== Sys2Proof/Tests/Slice0.lean ====
section
/-! SUPPORT. Tests against the vectors of spec/95_test_vectors.md and spec/96_test_programs.md, and the witnesses of the
obligations' hypotheses. `decide +kernel` where the operand words are long. -/

namespace Sys2Proof.Tests

open Sys2Proof.Machine

/-! ### Helpers -/

/-- `W_T`, the test-only width list of 95_test_vectors.md section 4. -/
def wT : List Nat := [2, 6, 8, 8, 8, 12, 4, 1, 1, 1, 1, 6, 22, 1] ++ [1, 7, 7, 1, 2, 3, 4, 1, 5, 1, 1, 1, 1, 4]

/-- The machine right after reset, as an instance with `W_T`. -/
def fresh : State := State.resetWith wT

/-- A packer in progress (vectors V-FLT). -/
def packing (fill : BitVec 7) (acc : Payload) (err : Code) : State :=
  { fresh with fill := fill, acc := acc, err := err }

/-- What a test looks at. -/
structure Seen where
  response : Option Response
  crc      : Crc
  acc      : Payload
  fill     : BitVec 7
  out      : Register
  status   : BitVec 16
deriving DecidableEq, Repr

/-- The part of the next state a test looks at. -/
def seen (r : Host.Outcome State Fault Refusal) : Option Seen :=
  match r with
  | .next t => some ⟨t.response, t.crc, t.acc, t.fill, t.out, statusWord t⟩
  | .fault _ => none
  | .refused _ => none

/-- The operands of the source's example, V-SRC-1. -/
def cidSrc1 : CidOperands := ⟨0x41, 0x3432, [0x53#8, 0x44#8, 0x43#8, 0x49#8, 0x54#8], 0x30, 0x12345678, 0, 0x112⟩

/-- Fields of the widths `W_T` with the given values. -/
def fieldsOf (vals : List Nat) : List CsdField :=
  List.zipWith (fun w v => ⟨BitVec.ofNat 6 w, BitVec.ofNat 40 v⟩) wT vals

/-- The fields of V-CSD-1. -/
def csd1 : List CsdField :=
  fieldsOf ([1, 0, 14, 0, 50, 1461, 9, 0, 0, 0, 0, 0, 30386, 0] ++ [1, 127, 0, 0, 0, 2, 9, 0, 0, 0, 1, 0, 0, 0])

/-- Three fields of 40 bits, V-PK-8. -/
def three40 : List CsdField := [⟨40#6, 0xFFFFFFFFFF#40⟩, ⟨40#6, 0#40⟩, ⟨40#6, 0xAAAAAAAAAA#40⟩]

/-! ### Decoding: the words of section 6 -/

/-- V-ENC-1 -/
theorem test_decode_crcClr : decode ⟨4, 0x0#4⟩ = .ok .crcClr := by decide

/-- V-ENC-3 -/
theorem test_decode_crcBit : decode ⟨5, 0x11#5⟩ = .ok (.crcBit true) := by decide

/-- V-ENC-6 -/
theorem test_decode_crcByte : decode ⟨12, 0x412#12⟩ = .ok (.crcByte 0x41#8) := by decide

/-- V-ENC-8 -/
theorem test_decode_crcTrl : decode ⟨4, 0x3#4⟩ = .ok .crcTrl := by decide

/-- V-ENC-9 -/
theorem test_decode_pkClr : decode ⟨4, 0x4#4⟩ = .ok .pkClr := by decide

/-- V-ENC-10 -/
theorem test_decode_pkSeal : decode ⟨4, 0x6#4⟩ = .ok .pkSeal := by decide

/-- V-ENC-13 -/
theorem test_decode_pkPush : decode ⟨50, 0x2853444349545#50⟩ = .ok (.pkPush 40#6 0x5344434954#40) := by decide

/-- V-ENC-27 -/
theorem test_decode_encCid : decode ⟨123, 0x209A1929A221A4AA18091A2B3C01128#123⟩ = .ok (.encCid cidSrc1) := by decide +kernel

/-- the word printed under V-CSD-1 -/
theorem test_decode_encCsd : decode ⟨1292, 0x08000000000460000000000200000000038800000000002000000000C8C00000005B510000000002410000000000040000000000100000000000400000000006000000000058000001DAC8100000000000400000000047000000007F1C00000000001000000000008000000000030000000002100000000024100000000001400000000001000000000004000000000410000000000040000000000400000000009#1292⟩ = .ok (.encCsd csd1) := by decide +kernel

/-- V-ENC-35 -/
theorem test_decode_crcTrailer : decode ⟨60, 0x48000001AA0005A#60⟩ = .ok (.crcTrailer [0x48#8, 0x00#8, 0x00#8, 0x01#8, 0xAA#8]) := by decide +kernel

/-- V-ENC-28 -/
theorem test_decode_crcTrailer_empty : decode ⟨20, 0x0000A#20⟩ = .ok (.crcTrailer []) := by decide +kernel

/-- V-ENC-37 -/
theorem test_decode_reserved7 : decode ⟨4, 0x7#4⟩ = .ok .reserved7 := by decide

/-- V-ENC-38 -/
theorem test_decode_reservedB : decode ⟨4, 0xB#4⟩ = .ok .reservedB := by decide

/-- V-ENC-39 -/
theorem test_decode_reservedC : decode ⟨4, 0xC#4⟩ = .ok .reservedC := by decide

/-- V-ENC-40 -/
theorem test_decode_reservedD : decode ⟨4, 0xD#4⟩ = .ok .reservedD := by decide

/-- V-ENC-41 -/
theorem test_decode_reservedE : decode ⟨4, 0xE#4⟩ = .ok .reservedE := by decide

/-- V-ENC-42 -/
theorem test_decode_reservedF : decode ⟨4, 0xF#4⟩ = .ok .reservedF := by decide

/-- V-ENC-11, bit by bit. -/
theorem test_decode_pkPush_bits : decode ⟨50, 0b001000#6 ++ 0b0000000000000000000000000000000001000001#40 ++ 0b0101#4⟩ = .ok (.pkPush 8#6 0x41#40) := by decide

theorem test_decode_short : decode ⟨3, 0x4#3⟩ = .rejected .noOpCode := by decide

theorem test_decode_wrongLength : decode ⟨5, 0x04#5⟩ = .rejected .wrongLength := by decide

theorem test_table_word_csd : decodeTableWord 1296 0x08000000000460000000000200000000038800000000002000000000C8C00000005B510000000002410000000000040000000000100000000000400000000006000000000058000001DAC8100000000000400000000047000000007F1C00000000001000000000008000000000030000000002100000000024100000000001400000000001000000000004000000000410000000000040000000000400000000009 = some (.encCsd csd1) := by decide +kernel

/-- R61. -/
theorem test_written_pkPush : (Instr.pkPush 8#6 0x41#40).written = "PK.PUSH 8, 65" := by decide +kernel

theorem test_written_trailer : (Instr.crcTrailer [0x40#8, 0x0A#8]).written = "CRC.TRAILER 40 0A" := by decide +kernel

/-! ### WellFormed refuses an ill-formed term of each kind (V-CID-F1 to F10; R56; R58) -/

theorem test_illFormed_mid : (Instr.encCid { cidSrc1 with mid := 256 }).wellFormed = false := by decide

theorem test_illFormed_mid_negative : (Instr.encCid { cidSrc1 with mid := -1 }).wellFormed = false := by decide

theorem test_illFormed_oid : (Instr.encCid { cidSrc1 with oid := 65536 }).wellFormed = false := by decide

theorem test_illFormed_pnm_short : (Instr.encCid { cidSrc1 with pnm := [0x53#8, 0x44#8, 0x43#8, 0x49#8] }).wellFormed = false := by decide

theorem test_illFormed_pnm_long : (Instr.encCid { cidSrc1 with pnm := cidSrc1.pnm ++ [0x58#8] }).wellFormed = false := by decide

theorem test_illFormed_prv : (Instr.encCid { cidSrc1 with prv := 256 }).wellFormed = false := by decide

theorem test_illFormed_psn : (Instr.encCid { cidSrc1 with psn := 4294967296 }).wellFormed = false := by decide

theorem test_illFormed_rsv : (Instr.encCid { cidSrc1 with rsv := 8 }).wellFormed = false := by decide

theorem test_illFormed_mdt : (Instr.encCid { cidSrc1 with mdt := 4096 }).wellFormed = false := by decide

theorem test_illFormed_csd : (Instr.encCsd (csd1.take 27)).wellFormed = false := by decide

theorem test_illFormed_trailer : (Instr.crcTrailer (List.replicate 65536 0x00#8)).wellFormed = false := by
  rw [Instr.wellFormed, List.length_replicate]
  rfl

/-! ### The constraint on CSD_WIDTHS (R6) -/

theorem test_widths_wT : Config.csdWidthsOk wT = true := by decide

/-- Sum 120, 27 entries. -/
theorem test_widths_count : Config.csdWidthsOk (wT.take 26 ++ [5]) = false := by decide

/-- 28 entries, sum 120, one entry 0. -/
theorem test_widths_zero : Config.csdWidthsOk ([0, 8] ++ wT.drop 2) = false := by decide

/-- 28 entries, sum 120, two entries above 40. -/
theorem test_widths_wide : Config.csdWidthsOk (41 :: 53 :: List.replicate 26 1) = false := by decide

theorem test_widths_sum : Config.csdWidthsOk (3 :: wT.drop 1) = false := by decide

/-! ### One operation each -/

/-- R75. -/
theorem test_crcClr : seen (exec .crcClr { fresh with crc := 0x4A#7 }) = some ⟨some ⟨0#2, .nothing⟩, 0x00#7, 0#120, 0#7, 0#128, 0#16⟩ := by decide

/-- V-STEP-14. -/
theorem test_crcBit_feedback : seen (exec (.crcBit true) { fresh with crc := 0x32#7 }) = some ⟨some ⟨0#2, .nothing⟩, 0x6D#7, 0#120, 0#7, 0#128, 0#16⟩ := by decide

/-- V-STEP-6. -/
theorem test_crcBit_noFeedback : seen (exec (.crcBit true) { fresh with crc := 0x7F#7 }) = some ⟨some ⟨0#2, .nothing⟩, 0x7E#7, 0#120, 0#7, 0#128, 0#16⟩ := by decide

/-- V-TRACE. -/
theorem test_crcByte : seen (exec (.crcByte 0x41#8) fresh) = some ⟨some ⟨0#2, .nothing⟩, 0x6D#7, 0#120, 0#7, 0#128, 0#16⟩ := by decide

/-- V-TRACE. -/
theorem test_crcByte_continues : seen (exec (.crcByte 0x95#8) { fresh with crc := 0x4A#7 }) = some ⟨some ⟨0#2, .nothing⟩, 0x09#7, 0#120, 0#7, 0#128, 0#16⟩ := by decide

/-- R78. -/
theorem test_crcTrl : seen (exec .crcTrl { fresh with crc := 0x4A#7 }) = some ⟨some ⟨0#2, .trailer 0x95#8⟩, 0x4A#7, 0#120, 0#7, 0#128, 0#16⟩ := by decide

/-- V-CRC-12. -/
theorem test_crcTrailer : seen (exec (.crcTrailer [0x31#8, 0x32#8, 0x33#8, 0x34#8, 0x35#8, 0x36#8, 0x37#8, 0x38#8, 0x39#8]) { fresh with crc := 0x11#7 }) =
    some ⟨some ⟨0#2, .trailer 0xEB#8⟩, 0x75#7, 0#120, 0#7, 0#128, 0#16⟩ := by decide +kernel

/-- R92. -/
theorem test_pkClr : seen (exec .pkClr { packing 56#7 0x41343253444349#120 1#2 with crc := 0x6D#7 }) = some ⟨some ⟨0#2, .nothing⟩, 0x6D#7, 0#120, 0#7, 0#128, 0#16⟩ := by decide

/-- V-FLT-10. -/
theorem test_pkPush : seen (exec (.pkPush 20#6 0xFFFFF#40) (packing 100#7 0xABCDE00000000000000000001#120 0#2)) =
    some ⟨some ⟨0#2, .nothing⟩, 0#7, 0xABCDE00000000000000000001FFFFF#120, 120#7, 0#128, 0x0078#16⟩ := by decide +kernel

/-- V-FLT-16. -/
theorem test_pkPush_noWrap : seen (exec (.pkPush 40#6 0#40) (packing 120#7 0x1#120 0#2)) = some ⟨some ⟨1#2, .nothing⟩, 0#7, 0x1#120, 120#7, 0#128, 0x0178#16⟩ := by decide +kernel

/-- V-SEAL-3. -/
theorem test_pkSeal : seen (exec .pkSeal { packing 120#7 0x413432534443495430123456780112#120 0#2 with crc := 0x11#7 }) =
    some ⟨some ⟨0#2, .register [0x41#8, 0x34#8, 0x32#8, 0x53#8, 0x44#8, 0x43#8, 0x49#8, 0x54#8, 0x30#8, 0x12#8, 0x34#8, 0x56#8, 0x78#8,
      0x01#8, 0x12#8, 0x57#8]⟩, 0x2B#7, 0x413432534443495430123456780112#120, 120#7, 0x41343253444349543012345678011257#128, 0x00F8#16⟩ := by decide +kernel

/-- V-FLT-20. -/
theorem test_pkSeal_pending : seen (exec .pkSeal (packing 8#7 0x41#120 2#2)) = some ⟨some ⟨2#2, .nothing⟩, 0#7, 0x41#120, 8#7, 0#128, 0x0208#16⟩ := by decide +kernel

/-- V-CID-4, with RSV = 5. -/
theorem test_encCid : (match exec (.encCid ⟨0x03, 0x5344, [0x53#8, 0x55#8, 0x30#8, 0x38#8, 0x47#8], 0x80, 0xDEADBEEF, 5, 0x0A3⟩) (packing 8#7 0x41#120 1#2) with
    | .next t => some (t.out, t.err)
    | .fault _ => none
    | .refused _ => none) = some (0x035344535530384780DEADBEEF50A369#128, 0#2) := by decide +kernel

/-- V-CID-F8. -/
theorem test_encCid_rsv : seen (exec (.encCid { cidSrc1 with rsv := 8 }) fresh) = some ⟨some ⟨1#2, .nothing⟩, 0#7, 0#120, 0#7, 0#128, 0x0100#16⟩ := by decide +kernel

/-- V-CSD-1. -/
theorem test_encCsd : (match exec (.encCsd csd1) fresh with
    | .next t => some (t.out, t.crc)
    | .fault _ => none
    | .refused _ => none) = some (0x400E00325B59000076B27F800A404013#128, 0x09#7) := by decide +kernel

/-- V-CSD-F7: the sum kept, two boundaries moved. -/
theorem test_encCsd_boundaries : seen (exec (.encCsd (csd1.take 26 ++ [⟨2#6, 0#40⟩, ⟨3#6, 0#40⟩])) fresh) = some ⟨some ⟨1#2, .nothing⟩, 0#7, 0#120, 0#7, 0#128, 0x0100#16⟩ := by decide +kernel

theorem test_reserved7 : seen (exec .reserved7 (packing 8#7 0x41#120 1#2)) = some ⟨some ⟨2#2, .nothing⟩, 0#7, 0x41#120, 8#7, 0#128, 0x0208#16⟩ := by decide

theorem test_reservedB : seen (exec .reservedB (packing 8#7 0x41#120 1#2)) = some ⟨some ⟨2#2, .nothing⟩, 0#7, 0x41#120, 8#7, 0#128, 0x0208#16⟩ := by decide

theorem test_reservedC : seen (exec .reservedC (packing 8#7 0x41#120 1#2)) = some ⟨some ⟨2#2, .nothing⟩, 0#7, 0x41#120, 8#7, 0#128, 0x0208#16⟩ := by decide

theorem test_reservedD : seen (exec .reservedD (packing 8#7 0x41#120 1#2)) = some ⟨some ⟨2#2, .nothing⟩, 0#7, 0x41#120, 8#7, 0#128, 0x0208#16⟩ := by decide

theorem test_reservedE : seen (exec .reservedE (packing 8#7 0x41#120 1#2)) = some ⟨some ⟨2#2, .nothing⟩, 0#7, 0x41#120, 8#7, 0#128, 0x0208#16⟩ := by decide

/-- V-FLT-21. -/
theorem test_reservedF : seen (exec .reservedF (packing 8#7 0x41#120 1#2)) = some ⟨some ⟨2#2, .nothing⟩, 0#7, 0x41#120, 8#7, 0#128, 0x0208#16⟩ := by decide

/-! ### One step -/

theorem test_step_issue : seen (step (hostIssue ⟨12, 0x412#12⟩ fresh)) = some ⟨some ⟨0#2, .nothing⟩, 0x6D#7, 0#120, 0#7, 0#128, 0#16⟩ := by decide

theorem test_step_idle : step fresh = .next fresh := rfl

theorem test_step_nonWord : step (hostIssue ⟨3, 0x4#3⟩ fresh) = .refused (.notACommandWord .noOpCode) := rfl

/-- V-FLT-14: PK.SEAL as the first operation. -/
theorem test_first_after_reset : (match step (State.reset.withFetchWord 8 0x6) with
    | .next t => t.response
    | .fault _ => none
    | .refused _ => none) = some ⟨1#2, .nothing⟩ := by decide


/-! ### Witnesses: for each obligation with hypotheses, clause by clause, a state and operands that meet them together -/

/-- A packer holding a full payload. -/
def full : State := packing 120#7 0x413432534443495430123456780112#120 0#2

/-- A packer with a fault pending. -/
def shut : State := packing 8#7 0x41#120 1#2

/-- Operands at the lower and upper ends of their ranges (R106). -/
def cidLow : CidOperands := ⟨0, 0, [0x00#8, 0x00#8, 0x00#8, 0x00#8, 0x00#8], 0, 0, 0, 0⟩

def cidHigh : CidOperands := ⟨255, 65535, [0xFF#8, 0xFF#8, 0xFF#8, 0xFF#8, 0xFF#8], 255, 4294967295, 7, 4095⟩

theorem witness_DecodeEncodeRoundTrip :
    (Instr.encCid cidHigh).wellFormed = true ∧ (Instr.encCsd csd1).wellFormed = true ∧
      (Instr.crcTrailer [0x40#8]).wellFormed = true := by decide

theorem witness_DecodeEncodeRoundTrip_longest : (Instr.crcTrailer (List.replicate 65535 0x00#8)).wellFormed = true := by
  rw [Instr.wellFormed, List.length_replicate]
  rfl

theorem witness_EncodeDecodeRoundTrip : decode ⟨20, 0x0000A#20⟩ = .ok (.crcTrailer []) := test_decode_crcTrailer_empty

theorem witness_ShortFormatsDecode :
    (0x11#5).extractLsb' 0 4 = 0x1#4 ∧ (0xFF2#12).extractLsb' 0 4 = 0x2#4 ∧
      (0x1000000034325#50).extractLsb' 0 4 = 0x5#4 := by decide

theorem witness_FormatCidDecodes : (0x209A1929A221A4AA18091A2B3C01128#123).extractLsb' 0 4 = 0x8#4 := by decide +kernel

theorem witness_FormatCsdDecodes : (0x9#1292).extractLsb' 0 4 = 0x9#4 ∧ 0 < 28 ∧ 27 < 28 := by decide +kernel

theorem witness_FormatSDecodes_empty :
    (0x0000A#(20 + 8 * 0)).extractLsb' 0 4 = 0xA#4 ∧ ((0x0000A#(20 + 8 * 0)).extractLsb' 4 16).toNat = 0 := by decide

theorem witness_FormatSDecodes :
    (0x41420002A#(20 + 8 * 2)).extractLsb' 0 4 = 0xA#4 ∧ ((0x41420002A#(20 + 8 * 2)).extractLsb' 4 16).toNat = 2 ∧
      1 < 2 := by decide

theorem witness_CrcIsLinear :
    [true, false].length = [false, false].length ∧ [0x40#8, 0x00#8].length = [0x11#8, 0xFF#8].length := by decide

theorem witness_TrailerByteShape : (0x95#8).getLsbD 0 = true ∧ (0x01#8).getLsbD 0 = true ∧ (0xFF#8).getLsbD 0 = true := by
  decide

theorem witness_CrcTrailerResult : [0x40#8, 0x00#8].length ≤ 65535 ∧ 1 < [0x40#8, 0x00#8].length := by decide

/-- The append at its three upper bounds (V-FLT-10), and the narrowest field into an empty packer. -/
theorem witness_PkPushResult_accepted :
    ((packing 80#7 0#120 0#2).err = 0#2 ∧ 1 ≤ (40#6).toNat ∧ (40#6).toNat ≤ 40 ∧
      (0xFFFFFFFFFF#40).toNat < 2 ^ (40#6).toNat ∧ (packing 80#7 0#120 0#2).fill.toNat + (40#6).toNat ≤ 120) ∧
    (fresh.err = 0#2 ∧ 1 ≤ (1#6).toNat ∧ (1#6).toNat ≤ 40 ∧ (1#40).toNat < 2 ^ (1#6).toNat ∧
      fresh.fill.toNat + (1#6).toNat ≤ 120) := by decide +kernel

/-- Each of the four ways to fail, at its boundary (R93). -/
theorem witness_PkPushResult_fault :
    fresh.err = 0#2 ∧ (0#6).toNat = 0 ∧ 40 < (41#6).toNat ∧ 2 ^ (4#6).toNat ≤ (16#40).toNat ∧
      (packing 81#7 0#120 0#2).err = 0#2 ∧ 120 < (packing 81#7 0#120 0#2).fill.toNat + (40#6).toNat := by decide +kernel

/-- A pending fault: the code 2 too. -/
theorem witness_PkPushResult_pending : shut.err ≠ 0#2 ∧ (packing 8#7 0x41#120 2#2).err ≠ 0#2 := by decide

theorem witness_PkPushLosesNoBit :
    (packing 80#7 0xFFFFFFFFFFFFFFFFFFFF#120 0#2).err = 0#2 ∧ 1 ≤ (40#6).toNat ∧ (40#6).toNat ≤ 40 ∧
      (0xFFFFFFFFFF#40).toNat < 2 ^ (40#6).toNat ∧
      (packing 80#7 0xFFFFFFFFFFFFFFFFFFFF#120 0#2).fill.toNat + (40#6).toNat ≤ 120 ∧
      (packing 80#7 0xFFFFFFFFFFFFFFFFFFFF#120 0#2).acc.toNat < 2 ^ (packing 80#7 0xFFFFFFFFFFFFFFFFFFFF#120 0#2).fill.toNat := by
  decide +kernel

theorem witness_PkSealResult :
    (full.err = 0#2 ∧ full.fill = 120#7) ∧
      ((packing 119#7 0#120 0#2).err = 0#2 ∧ (packing 119#7 0#120 0#2).fill ≠ 120#7) ∧ shut.err ≠ 0#2 := by decide

/-- The seal of a full packer, which answers OK: also the data of the statements on what a seal writes. -/
theorem witness_PkSealResult_again : exec .pkSeal full = .next (sealAcc full) ∧ AnsweredOk (sealAcc full) :=
  ⟨rfl, _, rfl⟩

theorem witness_PushSequenceIsPack :
    (∀ f ∈ three40, PushableField f) ∧ (three40.map fun f => f.len.toNat).sum ≤ 120 ∧ (pack (asPairs three40)).2 = 120 := by
  decide +kernel

theorem witness_MergingFieldsKeepsPack : 7 < 2 ^ 3 ∧ 0x1FF < 2 ^ 9 := by decide

theorem witness_LeftAlignedDesignAgrees :
    (∀ f ∈ three40.take 2, PushableField f) ∧ ((three40.take 2).map fun f => f.len.toNat).sum ≤ 120 := by decide +kernel

/-- The hypotheses of the completion clause are those of `cidOperandsOk`; both ends of every range. -/
theorem witness_EncCidResult :
    ((0 ≤ cidLow.mid ∧ cidLow.mid ≤ 255) ∧ (0 ≤ cidLow.oid ∧ cidLow.oid ≤ 65535) ∧ cidLow.pnm.length = 5 ∧
      (0 ≤ cidLow.prv ∧ cidLow.prv ≤ 255) ∧ (0 ≤ cidLow.psn ∧ cidLow.psn ≤ 2 ^ 32 - 1) ∧
      (0 ≤ cidLow.rsv ∧ cidLow.rsv ≤ 7) ∧ (0 ≤ cidLow.mdt ∧ cidLow.mdt ≤ 4095)) ∧
    ((0 ≤ cidHigh.mid ∧ cidHigh.mid ≤ 255) ∧ (0 ≤ cidHigh.oid ∧ cidHigh.oid ≤ 65535) ∧ cidHigh.pnm.length = 5 ∧
      (0 ≤ cidHigh.prv ∧ cidHigh.prv ≤ 255) ∧ (0 ≤ cidHigh.psn ∧ cidHigh.psn ≤ 2 ^ 32 - 1) ∧
      (0 ≤ cidHigh.rsv ∧ cidHigh.rsv ≤ 7) ∧ (0 ≤ cidHigh.mdt ∧ cidHigh.mdt ≤ 4095)) := by decide

/-- One operand beyond its range: V-CID-F8, and a negative one. -/
theorem witness_EncCidResult_fault :
    ¬(0 ≤ ({ cidSrc1 with rsv := 8 } : CidOperands).rsv ∧ ({ cidSrc1 with rsv := 8 } : CidOperands).rsv ≤ 7) ∧
      ¬(0 ≤ ({ cidSrc1 with mid := -1 } : CidOperands).mid ∧ ({ cidSrc1 with mid := -1 } : CidOperands).mid ≤ 255) := by
  decide

/-- For CidBytes, EncCidEqualsItsExpansion, EncodersArePure and, with the next, EncodersAreInjective. -/
theorem witness_cidOperands : cidOperandsOk cidSrc1 = true ∧ cidOperandsOk cidLow = true ∧ cidOperandsOk cidHigh = true := by
  decide

theorem witness_EncodersAreInjective_cid :
    exec (.encCid cidSrc1) fresh = .next (encodePayload (cidPayload cidSrc1) fresh) ∧
      exec (.encCid cidSrc1) shut = .next (encodePayload (cidPayload cidSrc1) shut) ∧
      outBytes (encodePayload (cidPayload cidSrc1) fresh) = outBytes (encodePayload (cidPayload cidSrc1) shut) :=
  ⟨rfl, rfl, rfl⟩

theorem witness_EncCsdResult :
    Config.csdWidthsOk fresh.csdWidths = true ∧ csd1.length = 28 ∧
      (∀ i < 28, (csd1[i]?).map (fun f => f.len.toNat) = fresh.csdWidths[i]?) ∧
      (∀ f ∈ csd1, f.val.toNat < 2 ^ f.len.toNat) := by decide +kernel

/-- The sum kept and a boundary moved (V-CSD-F7). -/
def csdMoved : List CsdField := csd1.take 26 ++ [⟨2#6, 0#40⟩, ⟨3#6, 0#40⟩]

/-- A value too large for its width by one. -/
def csdWide : List CsdField := csd1.take 27 ++ [⟨4#6, 16#40⟩]

/-- A sum of 121. -/
def csdLong : List CsdField := csd1.take 27 ++ [⟨5#6, 0#40⟩]

theorem witness_EncCsdResult_fault_widths :
    csdMoved.length = 28 ∧ 26 < 28 ∧ (csdMoved[26]?).map (fun f => f.len.toNat) ≠ fresh.csdWidths[26]? := by decide

theorem witness_EncCsdResult_fault_value : csdWide.length = 28 ∧ ∃ f ∈ csdWide, 2 ^ f.len.toNat ≤ f.val.toNat := by
  decide +kernel

theorem witness_EncCsdResult_fault_sum : csdLong.length = 28 ∧ (csdLong.map fun f => f.len.toNat).sum ≠ 120 := by decide

theorem witness_EncCsdFaultsOutsideItsDomain :
    Config.csdWidthsOk (State.resetWith (wT.take 27)).csdWidths = false ∧ (csd1.take 27).length ≠ 28 := by decide

/-- For CsdFieldPlacement, EncCsdEqualsItsExpansion, EncodersArePure. -/
theorem witness_csdOperands :
    csdOperandsOk fresh.csdWidths csd1 = true ∧ fresh.csdWidths = shut.csdWidths ∧ csd1[27]? = some ⟨4#6, 0#40⟩ := by
  decide +kernel

theorem witness_EncodersAreInjective_csd :
    (∃ t, exec (.encCsd csd1) fresh = .next t) ∧ outBytes (encodePayload (csdPayload csd1) fresh) =
      outBytes (encodePayload (csdPayload csd1) shut) := ⟨⟨_, rfl⟩, rfl⟩

/-- Also the data of ErrClearsInThreeWays' second clause and of the clauses on operations that do not answer OK. -/
theorem witness_FaultsArePrecise :
    exec .reservedF fresh = .next (raise 2#2 fresh) ∧ (raise 2#2 fresh).response = some ⟨2#2, .nothing⟩ ∧
      (2#2 : Code) ≠ 0#2 := by
  refine ⟨rfl, rfl, ?_⟩
  decide

theorem witness_InvalidFieldWidthCauses :
    (packing 119#7 0#120 0#2).err = 0#2 ∧ Config.csdWidthsOk (packing 119#7 0#120 0#2).csdWidths = true ∧
      exec .pkSeal (packing 119#7 0#120 0#2) = .next (raise 1#2 (packing 119#7 0#120 0#2)) :=
  ⟨rfl, by decide, rfl⟩

/-- For PendingFaultBehaviour: the operations its quantified clauses are about. -/
theorem witness_PendingFaultBehaviour : shut.err ≠ 0#2 ∧ isCrcPrimitive .crcTrl = true ∧ isCrcPrimitive (.crcBit true) = true := by
  decide

/-- The three ways, and a step that leaves the fault. -/
theorem witness_ErrClearsInThreeWays :
    shut.err ≠ 0#2 ∧
      (∃ t, step { shut with pending := [.reset] } = .next t ∧ t.err = 0#2) ∧
      (∃ t, step { shut with pending := [.issue ⟨4, 0x4#4⟩] } = .next t ∧ t.err = 0#2) ∧
      (∃ t, step { shut with pending := [.issue ⟨4, 0x0#4⟩] } = .next t ∧ t.err = 1#2) ∧
      (∃ t, decode ⟨4, 0xF#4⟩ = .ok .reservedF ∧ step { shut with pending := [.issue ⟨4, 0xF#4⟩] } = .next t ∧
        t.response = some ⟨2#2, .nothing⟩ ∧ t.err = 2#2) :=
  ⟨by decide, ⟨_, rfl, rfl⟩, ⟨_, rfl, rfl⟩, ⟨_, rfl, rfl⟩, ⟨_, rfl, rfl, rfl, rfl⟩⟩

theorem witness_ErrClearsInThreeWays_macro :
    decode ⟨123, 0x209A1929A221A4AA18091A2B3C01128#123⟩ = .ok (.encCid cidSrc1) ∧ cidOperandsOk cidSrc1 = true :=
  ⟨test_decode_encCid, by decide⟩

theorem witness_ShutPackerNeverSeals :
    shut.err ≠ 0#2 ∧ ∀ i ∈ [Instr.pkSeal, .pkPush 8#6 0x41#40, .reservedF, .crcClr, .encCid { cidSrc1 with rsv := 8 }],
      i ≠ .pkClr ∧ (∀ o, i = .encCid o → cidOperandsOk o = false) ∧
        (∀ fields, i = .encCsd fields → csdOperandsOk shut.csdWidths fields = false) := by
  refine ⟨by decide, ?_⟩
  simp only [List.mem_cons, List.not_mem_nil, or_false]
  rintro i (rfl | rfl | rfl | rfl | rfl) <;> exact ⟨by simp, fun o h => by cases h <;> rfl, fun fields h => by cases h⟩

/-- For OutValidIsWrittenByTheseOnly and CrcIsWrittenByTheseOnly: an operation that answers OK and changes `crc`, one that
answers a fault, and PK.CLR. -/
theorem witness_OutValidIsWrittenByTheseOnly :
    (exec .pkSeal full = .next (sealAcc full) ∧ AnsweredOk (sealAcc full)) ∧
      (exec .pkSeal shut = .next (answerPending shut) ∧ ¬AnsweredOk (answerPending shut)) ∧
      (∃ t, exec .pkClr full = .next t) ∧ (∃ t, exec .crcTrl full = .next t) := by
  refine ⟨⟨rfl, _, rfl⟩, ⟨rfl, ?_⟩, ⟨_, rfl⟩, ⟨_, rfl⟩⟩
  rintro ⟨d, h⟩
  cases h

theorem witness_CrcIsWrittenByTheseOnly :
    ∃ t, exec (.crcByte 0x41#8) fresh = .next t ∧ t.crc ≠ fresh.crc := ⟨_, rfl, by decide⟩

theorem witness_OperationFrames :
    (∃ t, exec (.crcBit true) full = .next t) ∧ isCrcPrimitive (.crcBit true) = true ∧ (∃ t, exec (.crcTrailer []) full = .next t) ∧
      (∃ t, exec (.pkPush 1#6 1#40) fresh = .next t) := ⟨⟨_, rfl⟩, rfl, ⟨_, rfl⟩, ⟨_, rfl⟩⟩

theorem witness_ResetEvent : ({ full with pending := [.reset, .issue ⟨4, 0x4#4⟩] } : State).pending = .reset :: [.issue ⟨4, 0x4#4⟩] := rfl

theorem witness_FirstAnswersAfterReset : 1 ≤ (40#6).toNat ∧ (40#6).toNat ≤ 40 ∧ (0xFFFFFFFFFF#40).toNat < 2 ^ (40#6).toNat := by
  decide +kernel

/-- A sealed register, an empty packer and a packer in progress meet the invariants. -/
theorem witness_StepKeepsInv :
    MachineInv fresh ∧ MachineInv (hostIssue ⟨4, 0x6#4⟩ shut) ∧ MachineInv (sealAcc full) ∧
      (∃ t, step (hostIssue ⟨4, 0x6#4⟩ shut) = .next t) := by
  refine ⟨by decide +kernel, by decide +kernel, by decide +kernel, ⟨_, rfl⟩⟩

theorem witness_StepRunsTheDecodedOperation :
    (hostIssue ⟨12, 0x412#12⟩ fresh).pending = [.issue ⟨12, 0x412#12⟩] ∧ decode ⟨12, 0x412#12⟩ = .ok (.crcByte 0x41#8) ∧
      fresh.pending = [] := ⟨rfl, test_decode_crcByte, rfl⟩

theorem witness_StreamRunsInIssueOrder :
    (∀ i ∈ [Instr.crcClr, .crcByte 0x41#8, .encCid cidSrc1, .pkSeal], i.wellFormed = true) ∧ fresh.pending = [] := by decide

theorem witness_StepKeepsTheInstance : ∃ t, step (hostIssue ⟨4, 0x6#4⟩ fresh) = .next t := ⟨_, rfl⟩

end Sys2Proof.Tests
end

namespace Sys2Proof.Machine

/-! ### Sealed registers and the status word -/

/-- The trailer carries the CRC in its upper seven bits (R74). -/
@[simp] theorem extract_crc_trailerOf (c : Crc) : (trailerOf c).extractLsb' 1 7 = c := by
  ext i hi
  have hi8 : 1 + i < 8 := by omega
  simp [trailerOf, hi8, BitVec.getLsbD_eq_getElem hi]

/-- The lowest bit of a trailer is the stop bit (R74). -/
@[simp] theorem getLsbD_zero_trailerOf (c : Crc) : (trailerOf c).getLsbD 0 = true := by
  simp [trailerOf]

/-- Bits 127 to 8 of a sealed register are the payload (R91). -/
@[simp] theorem extract_payload_sealPayload (a : Payload) : (sealPayload a).extractLsb' 8 120 = a :=
  (extract_append_high a _ 8 120 (by omega)).trans (extract_whole a)

/-- Bits 7 to 1 of a sealed register are the CRC of the payload bytes (R91, R13). -/
@[simp] theorem extract_crc_sealPayload (a : Payload) :
    (sealPayload a).extractLsb' 1 7 = crc7Bytes (payloadBytes a) :=
  (extract_append_low a _ 1 7 (by omega)).trans (extract_crc_trailerOf _)

/-- Bit 0 of a sealed register is the stop bit (R91). -/
@[simp] theorem getLsbD_zero_sealPayload (a : Payload) : (sealPayload a).getLsbD 0 = true := by
  rw [sealPayload, BitVec.getLsbD_append, if_pos (by omega), trailer, getLsbD_zero_trailerOf]

theorem statusWord_fill (s : State) : (statusWord s).extractLsb' 0 7 = s.fill :=
  (extract_append_low _ s.fill 0 7 (by omega)).trans (extract_whole _)

theorem statusWord_outValid (s : State) : (statusWord s).getLsbD 7 = s.outValid := by
  rw [statusWord, BitVec.getLsbD_append, if_neg (by omega), BitVec.getLsbD_append, if_pos (by omega)]
  simp

theorem statusWord_err (s : State) : (statusWord s).extractLsb' 8 2 = s.err :=
  calc (statusWord s).extractLsb' 8 2
      = (0#6 ++ s.err ++ BitVec.ofBool s.outValid).extractLsb' 1 2 := extract_append_high _ s.fill 8 2 (by omega)
    _ = (0#6 ++ s.err).extractLsb' 0 2 := extract_append_high _ _ 1 2 (by omega)
    _ = s.err.extractLsb' 0 2 := extract_append_low _ _ 0 2 (by omega)
    _ = s.err := extract_whole _

theorem statusWord_top (s : State) : (statusWord s).extractLsb' 10 6 = 0#6 :=
  calc (statusWord s).extractLsb' 10 6
      = (0#6 ++ s.err ++ BitVec.ofBool s.outValid).extractLsb' 3 6 := extract_append_high _ s.fill 10 6 (by omega)
    _ = (0#6 ++ s.err).extractLsb' 2 6 := extract_append_high _ _ 3 6 (by omega)
    _ = (0#6).extractLsb' 0 6 := extract_append_high _ _ 2 6 (by omega)
    _ = 0#6 := extract_whole _

/-! ### The invariants -/

/-- A state with the packer's five elements cleared meets R20. -/
theorem machineInv_of_cleared {s : State} (ha : s.acc = 0#120) (hf : s.fill = 0#7) (ho : s.out = 0#128)
    (hv : s.outValid = false) (he : s.err = 0#2) : MachineInv s :=
  ⟨by simp [hf], by simp [ha, hf], .inl he, fun _ => ho, by simp [hv], statusWord_top s⟩

/-- A state whose `out` is the seal of a full accumulator meets R20. -/
theorem machineInv_of_sealed {s : State} (hf : s.fill = 120#7) (ho : s.out = sealPayload s.acc)
    (hv : s.outValid = true) (he : ErrLegal s) : MachineInv s :=
  have hacc : AccWithinFill s := by
    rw [AccWithinFill, hf]
    exact s.acc.isLt
  ⟨by simp [hf], hacc, he, fun h => by simp [hv] at h, fun _ => by simp [hf, ho], statusWord_top s⟩

/-- The invariants speak only of the packer's five elements. -/
theorem MachineInv.congr {s t : State} (hs : MachineInv s) (ha : t.acc = s.acc) (hf : t.fill = s.fill)
    (ho : t.out = s.out) (hv : t.outValid = s.outValid) (he : ErrLegal t) : MachineInv t := by
  obtain ⟨hfill, hacc, -, hclear, hsealed, -⟩ := hs
  refine ⟨?_, ?_, he, ?_, ?_, statusWord_top t⟩
  · rwa [FillInRange, hf]
  · rwa [AccWithinFill, ha, hf]
  · rwa [OutClearUnlessValid, hv, ho]
  · rwa [OutSealedWhenValid, hv, hf, ho, ha]

/-- An accepted push keeps the invariants: there is room, so nothing is sealed yet, and the barrel shift loses no bit. -/
theorem machineInv_pushed {w : BitVec 6} {v : BitVec 40} {s : State} (hs : MachineInv s) (hp : PushAccepted w v s) :
    MachineInv (pushed w v s) := by
  obtain ⟨-, hacc, herr, hclear, hsealed, -⟩ := hs
  obtain ⟨hw, -, hv, hroom⟩ := hp
  have hfill : (pushed w v s).fill.toNat = s.fill.toNat + w.toNat := by
    simp only [respond_fill, BitVec.toNat_ofNat]
    omega
  have hopen : s.outValid = false := by
    by_contra h
    obtain ⟨hfull, -⟩ := hsealed (by simpa using h)
    rw [hfull, BitVec.toNat_ofNat] at hroom
    omega
  refine ⟨by rw [FillInRange, hfill]; exact hroom, ?_, herr, hclear, by simp [hopen], statusWord_top _⟩
  rw [AccWithinFill, hfill]
  calc (pushedAcc s.acc w v).toNat = s.acc.toNat * 2 ^ w.toNat + v.toNat := pushedAcc_toNat hv hacc hroom
    _ < (s.acc.toNat + 1) * 2 ^ w.toNat := by rw [Nat.add_mul]; omega
    _ ≤ 2 ^ s.fill.toNat * 2 ^ w.toNat := Nat.mul_le_mul_right _ hacc
    _ = 2 ^ (s.fill.toNat + w.toNat) := (pow_add 2 _ _).symm

/-- Every operation, faulting or not, keeps the invariants. -/
theorem exec_keeps_inv {i : Instr} {s t : State} (hs : MachineInv s) (h : exec i s = .next t) : MachineInv t := by
  have ⟨_, _, herr, _⟩ := hs
  rcases exec_cases h with ⟨k, d, rfl⟩ | ⟨c, d, rfl⟩ | rfl | ⟨w, v, -, hp, rfl⟩ | ⟨-, hfull, rfl⟩ | ⟨a, rfl⟩ |
    ⟨k, hk, rfl⟩
  · exact hs.congr rfl rfl rfl rfl herr
  · exact hs.congr rfl rfl rfl rfl herr
  · exact machineInv_of_cleared rfl rfl rfl rfl rfl
  · exact machineInv_pushed hs hp
  · exact machineInv_of_sealed (BitVec.eq_of_toNat_eq hfull) rfl rfl herr
  · exact machineInv_of_sealed rfl rfl rfl (.inl rfl)
  · exact hs.congr rfl rfl rfl rfl (.inr hk)

/-! ### What one operation leaves -/

/-- The operations that write `out` when they answer OK. -/
abbrev IsSealing (i : Instr) : Prop := i = .pkSeal ∨ (∃ o, i = .encCid o) ∨ ∃ fields, i = .encCsd fields

/-- `out` is sealed from `acc`, and `crc` is the CRC of its payload (R91, R95). -/
structure SealedFromAcc (s : State) : Prop where
  outValid : s.outValid = true
  out : s.out = sealPayload s.acc
  crc : s.crc = crc7Bytes (payloadBytes s.acc)

theorem answeredOk_iff {s : State} {k : Code} {d : ResponseData} (h : s.response = some ⟨k, d⟩) :
    AnsweredOk s ↔ k = 0#2 := by
  simp [AnsweredOk, h]

/-- A CRC operation writes `crc` and answers OK, nothing else (R75 to R80). -/
theorem execCrc_cases {i : Instr} {s t : State} (hi : isCrcPrimitive i = true ∨ ∃ bytes, i = .crcTrailer bytes)
    (h : exec i s = .next t) : ∃ c d, t = respond 0#2 d { s with crc := c } := by
  rcases hi with hi | ⟨bytes, rfl⟩
  · cases i with
    | crcClr | crcBit _ | crcByte _ | crcTrl => cases h; exact ⟨_, _, rfl⟩
    | _ => cases hi
  · cases h
    exact ⟨_, _, rfl⟩

/-- PK.PUSH writes `acc`, `fill` and `err` at most (R93). -/
theorem execPkPush_frame {w : BitVec 6} {v : BitVec 40} {s t : State} (h : exec (.pkPush w v) s = .next t) :
    t.crc = s.crc ∧ t.out = s.out ∧ t.outValid = s.outValid := by
  rcases execPkPush_cases h with ⟨-, rfl⟩ | ⟨-, -, rfl⟩ | ⟨-, -, rfl⟩ <;> exact ⟨rfl, rfl, rfl⟩

/-- PK.SEAL reads `acc` and `fill` and does not write them (R95). -/
theorem execPkSeal_frame {s t : State} (h : exec .pkSeal s = .next t) : t.acc = s.acc ∧ t.fill = s.fill := by
  rcases execPkSeal_cases h with ⟨-, rfl⟩ | ⟨-, -, rfl⟩ | ⟨-, -, rfl⟩ <;> exact ⟨rfl, rfl⟩

/-- No operation writes the host's stream or `csdWidths` (R142). -/
theorem exec_keeps_host {i : Instr} {s t : State} (h : exec i s = .next t) :
    t.pending = s.pending ∧ t.csdWidths = s.csdWidths := by
  rcases exec_cases h with ⟨k, d, rfl⟩ | ⟨c, d, rfl⟩ | rfl | ⟨w, v, -, -, rfl⟩ | ⟨-, -, rfl⟩ | ⟨a, rfl⟩ |
    ⟨k, -, rfl⟩ <;> exact ⟨rfl, rfl⟩

/-- An operation that answers a fault writes at most `err` (R123, R124). -/
theorem exec_fault_cases {i : Instr} {s t : State} (h : exec i s = .next t) (hn : ¬AnsweredOk t) :
    ∃ k d, t = respond k d s ∨ t = raise k s := by
  rcases exec_cases h with ⟨k, d, rfl⟩ | ⟨c, d, rfl⟩ | rfl | ⟨w, v, -, -, rfl⟩ | ⟨-, -, rfl⟩ | ⟨a, rfl⟩ | ⟨k, -, rfl⟩
  · exact ⟨k, d, .inl rfl⟩
  · exact absurd ⟨d, rfl⟩ hn
  · exact absurd ⟨.nothing, rfl⟩ hn
  · exact absurd ⟨.nothing, rfl⟩ hn
  · exact absurd ⟨_, rfl⟩ hn
  · exact absurd ⟨_, rfl⟩ hn
  · exact ⟨k, .nothing, .inr rfl⟩

theorem exec_fault_keeps {i : Instr} {s t : State} (h : exec i s = .next t) (hn : ¬AnsweredOk t) :
    t.crc = s.crc ∧ t.outValid = s.outValid := by
  obtain ⟨k, d, rfl | rfl⟩ := exec_fault_cases h hn <;> exact ⟨rfl, rfl⟩

/-- A sealing operation that answers OK has sealed. -/
theorem exec_sealing_ok {i : Instr} {s t : State} (hi : IsSealing i) (h : exec i s = .next t) (hok : AnsweredOk t) :
    SealedFromAcc t := by
  have hstatus {k : Code} {d : ResponseData} (hr : t.response = some ⟨k, d⟩) : k = 0#2 := (answeredOk_iff hr).1 hok
  rcases hi with rfl | ⟨o, rfl⟩ | ⟨fields, rfl⟩
  · rcases execPkSeal_cases h with ⟨he, rfl⟩ | ⟨-, -, rfl⟩ | ⟨-, -, rfl⟩
    · exact absurd (hstatus rfl) he
    · exact absurd (hstatus rfl) (by decide)
    · exact ⟨rfl, rfl, rfl⟩
  · rcases execEncCid_cases h with ⟨-, rfl⟩ | ⟨-, rfl⟩
    · exact ⟨rfl, rfl, rfl⟩
    · exact absurd (hstatus rfl) (by decide)
  · rcases execEncCsd_cases h with ⟨-, rfl⟩ | ⟨-, rfl⟩
    · exact ⟨rfl, rfl, rfl⟩
    · exact absurd (hstatus rfl) (by decide)

/-! ### Steps and streams -/

theorem step_idle {s : State} (h : s.pending = []) : step s = .next s := by
  simp [step, takeEvent, h]

theorem step_issue {s : State} {c : CmdWord} {rest : List HostEvent} {i : Instr} (hp : s.pending = .issue c :: rest)
    (hd : decode c = .ok i) : step s = exec i { s with pending := rest } := by
  simp [step, takeEvent, hp, hd]

/-- An operation neither reads nor writes the host's stream. -/
theorem exec_withPending {i : Instr} {s t : State} (h : exec i s = .next t) (p : List HostEvent) :
    exec i { s with pending := p } = .next { t with pending := p } := by
  cases i with
  | crcClr | crcBit _ | crcByte _ | crcTrl | pkClr | crcTrailer _ => cases h; rfl
  | reserved7 | reservedB | reservedC | reservedD | reservedE | reservedF => cases h; rfl
  | pkPush _ _ | pkSeal | encCid _ | encCsd _ =>
    cases h
    simp only [exec, execPkPush, execPkSeal, execEncCid, execEncCsd, apply_ite (fun u : State => { u with pending := p })]
    rfl

/-- A stream of words that decode to the operations runs as the operations do. -/
theorem runSteps_stream {is : List Instr} (hd : ∀ i ∈ is, decode (encode i) = .ok i) {s : State} (hs : s.pending = []) :
    runSteps is.length { s with pending := is.map fun i => .issue (encode i) } = execAll is s := by
  induction is generalizing s with
  | nil =>
    have hsame : { s with pending := [] } = s := by rw [← hs]
    rw [List.map_nil, hsame]
    rfl
  | cons i is ih =>
    obtain ⟨t, ht⟩ := exec_completes i s
    have hstep : step { s with pending := (i :: is).map fun i => .issue (encode i) } =
        .next { t with pending := is.map fun i => .issue (encode i) } :=
      (step_issue rfl (hd i List.mem_cons_self)).trans (exec_withPending ht _)
    have hidle : t.pending = [] := (exec_keeps_host ht).1.trans hs
    rw [execAll_cons ht, ← ih (fun j hj => hd j (List.mem_cons_of_mem i hj)) hidle, List.length_cons, runSteps, hstep]

end Sys2Proof.Machine

/-! ### Decoding a word the encoder made -/

namespace Sys2Proof

theorem extract_extract {n : Nat} (x : BitVec n) {lo w a v : Nat} (h : a + v ≤ w) :
    (x.extractLsb' lo w).extractLsb' a v = x.extractLsb' (lo + a) v := by
  ext i hi
  simp [show a + i < w by omega, Nat.add_assoc]

/-- The per-instruction facts of the encoder's words, over all operations. -/
theorem encodedWord (i : Instr) : Laws.EncodedWord.Statement i := by
  cases i with
  | crcClr => exact Laws.EncodedWord.crcClr
  | crcBit b => exact Laws.EncodedWord.crcBit b
  | crcByte d => exact Laws.EncodedWord.crcByte d
  | crcTrl => exact Laws.EncodedWord.crcTrl
  | pkClr => exact Laws.EncodedWord.pkClr
  | pkPush w v => exact Laws.EncodedWord.pkPush w v
  | pkSeal => exact Laws.EncodedWord.pkSeal
  | encCid o => exact Laws.EncodedWord.encCid o
  | encCsd fields => exact Laws.EncodedWord.encCsd fields
  | crcTrailer bytes => exact Laws.EncodedWord.crcTrailer bytes
  | reserved7 => exact Laws.EncodedWord.reserved7
  | reservedB => exact Laws.EncodedWord.reservedB
  | reservedC => exact Laws.EncodedWord.reservedC
  | reservedD => exact Laws.EncodedWord.reservedD
  | reservedE => exact Laws.EncodedWord.reservedE
  | reservedF => exact Laws.EncodedWord.reservedF

theorem encode_op {i : Instr} (h : i.wellFormed = true) : (encode i).op = (Laws.tableCode i).toNat := by
  rw [CmdWord.op, (encodedWord i h).1]

end Sys2Proof

/-! #### Numbers packed side by side -/

namespace Sys2Proof.Machine

/-- `pack`'s first component is the fold of shifts and ORs. -/
theorem pack_fst_eq_foldl (fields : List (Nat × Nat)) :
    (pack fields).1 = fields.foldl (fun a f => (a <<< f.1) ||| f.2) 0 := by
  induction fields using List.reverseRecOn with
  | nil => rfl
  | append_singleton fs f ih => rw [pack_snoc, pushFn, ih, List.foldl_append]; rfl

/-- Numbers of `w` bits each, as fields. -/
def digits (w : Nat) (vs : List Nat) : List (Nat × Nat) := vs.map (w, ·)

theorem totalWidth_digits (w : Nat) (vs : List Nat) : totalWidth (digits w vs) = w * vs.length := by
  induction vs with
  | nil => rfl
  | cons v vs ih =>
    rw [digits, List.map_cons, totalWidth_cons, ← digits, ih, List.length_cons, Nat.mul_succ, Nat.add_comm]

theorem allFit_digits {w : Nat} {vs : List Nat} (h : ∀ v ∈ vs, v < 2 ^ w) : AllFit (digits w vs) := by
  intro f hf
  obtain ⟨v, hv, rfl⟩ := List.mem_map.1 hf
  exact h v hv

theorem pack_digits_lt {w : Nat} {vs : List Nat} (h : ∀ v ∈ vs, v < 2 ^ w) :
    (pack (digits w vs)).1 < 2 ^ (w * vs.length) :=
  totalWidth_digits w vs ▸ pack_lt _ (allFit_digits h)

/-- What stands at the place of the `j`-th number. -/
theorem pack_digits_at {w : Nat} {vs : List Nat} (h : ∀ v ∈ vs, v < 2 ^ w) {j : Nat} (hj : j < vs.length) :
    (pack (digits w vs)).1 / 2 ^ (w * (vs.length - 1 - j)) % 2 ^ w = vs[j] := by
  have hsplit : digits w vs = digits w (vs.take j) ++ (w, vs[j]) :: digits w (vs.drop (j + 1)) := by
    simp only [digits]
    rw [← List.map_cons (f := (w, ·)), ← List.map_append, ← List.drop_eq_getElem_cons hj, List.take_append_drop]
  have hlen : w * (vs.length - 1 - j) = totalWidth (digits w (vs.drop (j + 1))) := by
    rw [totalWidth_digits, List.length_drop]
    congr 1
    omega
  rw [hlen, hsplit]
  exact pack_field_at _ _ (w, vs[j]) (hsplit ▸ allFit_digits h)

/-- The same, read out of a word wide enough for all the numbers. -/
theorem extract_pack_digits {w n : Nat} {vs : List Nat} (h : ∀ v ∈ vs, v < 2 ^ w) (hn : w * vs.length ≤ n) {j : Nat}
    (hj : j < vs.length) :
    (BitVec.ofNat n (pack (digits w vs)).1).extractLsb' (w * (vs.length - 1 - j)) w = BitVec.ofNat w vs[j] := by
  have hfit : (pack (digits w vs)).1 < 2 ^ n := lt_of_lt_of_le (pack_digits_lt h) (Nat.pow_le_pow_right (by norm_num) hn)
  apply BitVec.eq_of_toNat_eq
  rw [BitVec.extractLsb'_toNat, BitVec.toNat_ofNat, BitVec.toNat_ofNat, Nat.mod_eq_of_lt hfit, Nat.shiftRight_eq_div_pow,
    pack_digits_at h hj, Nat.mod_eq_of_lt (h _ (List.getElem_mem hj))]

theorem bytesNat_eq_pack (bytes : List Byte) : bytesNat bytes = (pack (digits 8 (bytes.map BitVec.toNat))).1 := by
  rw [pack_fst_eq_foldl, digits, List.map_map, List.foldl_map]
  rfl

theorem slotsNat_eq_pack (fields : List CsdField) :
    slotsNat fields = (pack (digits 46 (fields.map fun f => (f.len ++ f.val).toNat))).1 := by
  rw [pack_fst_eq_foldl, digits, List.map_map, List.foldl_map]
  rfl

theorem bytes_fit (bytes : List Byte) : ∀ v ∈ bytes.map BitVec.toNat, v < 2 ^ 8 := by
  intro v hv
  obtain ⟨b, -, rfl⟩ := List.mem_map.1 hv
  exact b.isLt

theorem slots_fit (fields : List CsdField) : ∀ v ∈ fields.map fun f => (f.len ++ f.val).toNat, v < 2 ^ 46 := by
  intro v hv
  obtain ⟨f, -, rfl⟩ := List.mem_map.1 hv
  exact (f.len ++ f.val).isLt

/-- The bytes of a list stand in its number from the first down (R58). -/
theorem extract_bytesNat {bytes : List Byte} {n j : Nat} (hn : 8 * bytes.length ≤ n) (hj : j < bytes.length) :
    (BitVec.ofNat n (bytesNat bytes)).extractLsb' (8 * (bytes.length - 1 - j)) 8 = bytes[j] := by
  have := extract_pack_digits (bytes_fit bytes) (n := n) (by simpa using hn) (j := j) (by simpa using hj)
  simpa [bytesNat_eq_pack] using this

/-- The slots of a list stand in its number from the first down (R56). -/
theorem extract_slotsNat {fields : List CsdField} {n j : Nat} (hn : 46 * fields.length ≤ n) (hj : j < fields.length) :
    (BitVec.ofNat n (slotsNat fields)).extractLsb' (46 * (fields.length - 1 - j)) 46 = fields[j].len ++ fields[j].val := by
  have := extract_pack_digits (slots_fit fields) (n := n) (by simpa using hn) (j := j) (by simpa using hj)
  simpa [slotsNat_eq_pack, -BitVec.toNat_append] using this

/-- `pnmBits` is the number of its bytes, cut to 40 bits. -/
theorem pnmBits_eq_ofNat (p : List Byte) : pnmBits p = BitVec.ofNat 40 (bytesNat p) := by
  induction p using List.reverseRecOn with
  | nil => rfl
  | append_singleton p b ih =>
    have hp : pnmBits (p ++ [b]) = (pnmBits p <<< 8) ||| b.setWidth 40 := by simp [pnmBits]
    have hb : bytesNat (p ++ [b]) = (bytesNat p <<< 8) ||| b.toNat := by simp [bytesNat]
    rw [hp, hb, ih]
    apply BitVec.eq_of_toNat_eq
    rw [BitVec.toNat_or, BitVec.toNat_shiftLeft, BitVec.toNat_ofNat, BitVec.toNat_ofNat, BitVec.toNat_setWidth,
      Nat.or_mod_two_pow, Nat.shiftLeft_eq, Nat.shiftLeft_eq, Nat.mod_mul_mod]

end Sys2Proof.Machine

namespace Sys2Proof

open Machine

/-- PNM stands in its 40 bits with the first character on top (R59). -/
theorem extract_pnmBits {p : List Byte} (hp : p.length = 5) {j : Nat} (hj : j < 5) :
    (pnmBits p).extractLsb' (32 - 8 * j) 8 = p[j] := by
  rw [pnmBits_eq_ofNat, ← extract_bytesNat (n := 40) (by omega) (by omega)]
  congr 1
  omega

/-! #### Format CID -/

theorem cidWord_pnm {o : CidOperands} {j : Nat} (hj : j < 5) :
    (cidWord o).extractLsb' (91 - 8 * j) 8 = (pnmBits o.pnm).extractLsb' (32 - 8 * j) 8 := by
  simp (disch := omega) only [cidWord, extract_append_high, extract_append_low]
  congr 1
  omega

theorem cidOperands_cidWord {o : CidOperands} (h : o.wellFormed = true) :
    CmdWord.cidOperands ⟨123, cidWord o⟩ = o := by
  simp only [CidOperands.wellFormed, Bool.and_eq_true, beq_iff_eq] at h
  obtain ⟨⟨⟨⟨⟨⟨hmid, hoid⟩, hpnm⟩, hprv⟩, hpsn⟩, hrsv⟩, hmdt⟩ := h
  have hbytes : CmdWord.pnm ⟨123, cidWord o⟩ = o.pnm := by
    apply List.ext_getElem
    · simp [CmdWord.pnm, hpnm]
    · intro j hj hj'
      simp only [CmdWord.pnm, List.getElem_map, List.getElem_range]
      rw [cidWord_pnm (by omega), extract_pnmBits hpnm (by omega)]
  have hfields : CmdWord.cidOperands ⟨123, cidWord o⟩ =
      ⟨(BitVec.ofInt 8 o.mid).toNat, (BitVec.ofInt 16 o.oid).toNat, o.pnm, (BitVec.ofInt 8 o.prv).toNat,
        (BitVec.ofInt 32 o.psn).toNat, (BitVec.ofInt 3 o.rsv).toNat, (BitVec.ofInt 12 o.mdt).toNat⟩ := by
    simp only [CmdWord.cidOperands, hbytes, CmdWord.field]
    simp (disch := omega) only [cidWord, extract_append_high, extract_append_low, Nat.reduceSub, extract_whole]
  rw [hfields, toNat_ofInt_of_fits hmid, toNat_ofInt_of_fits hoid, toNat_ofInt_of_fits hprv, toNat_ofInt_of_fits hpsn,
    toNat_ofInt_of_fits hrsv, toNat_ofInt_of_fits hmdt]

/-! #### Format CSD -/

theorem csdSlot_encode {fields : List CsdField} (h : fields.length = 28) {i : Nat} (hi : i < 28) :
    (encode (.encCsd fields)).csdSlot i = fields[i] := by
  have hslot : (BitVec.ofNat 1288 (slotsNat fields)).extractLsb' (46 * (27 - i)) 46 = fields[i].len ++ fields[i].val := by
    rw [← extract_slotsNat (n := 1288) (by omega) (by omega)]
    congr 1
    omega
  have hlen : (BitVec.ofNat 1288 (slotsNat fields)).extractLsb' (46 * (27 - i) + 40) 6 = fields[i].len := by
    rw [← extract_extract _ (w := 46) (by omega), hslot, BitVec.extractLsb'_append_eq_left]
  have hval : (BitVec.ofNat 1288 (slotsNat fields)).extractLsb' (46 * (27 - i) + 0) 40 = fields[i].val := by
    rw [← extract_extract _ (w := 46) (by omega), hslot, BitVec.extractLsb'_append_eq_right]
  simp only [CmdWord.csdSlot, encode]
  rw [extract_append_high _ _ _ _ (by omega), extract_append_high _ _ _ _ (by omega), Nat.add_assoc,
    Nat.add_sub_cancel_left, Nat.add_sub_cancel_left, hlen, ← Nat.add_zero (46 * (27 - i)), hval]

/-! #### Format S -/

/-- The number format S carries: the bytes above the count above the code (R58). -/
theorem trailerNumber_eq {n : Nat} (bs : Nat) (hn : n < 65536) :
    (bs <<< 20) ||| (n <<< 4) ||| 0xA = bs * 2 ^ 20 + n * 2 ^ 4 + 0xA := by
  have hlow : n <<< 4 ||| 0xA = n * 2 ^ 4 + 0xA := by
    rw [Nat.shiftLeft_eq, Nat.mul_comm, Nat.two_pow_add_eq_or_of_lt (by norm_num)]
  rw [Nat.or_assoc, hlow, Nat.shiftLeft_eq, Nat.mul_comm, ← Nat.two_pow_add_eq_or_of_lt (by omega)]
  omega

theorem trailerNumber_lt (bytes : List Byte) (h : bytes.length < 65536) :
    bytesNat bytes * 2 ^ 20 + bytes.length * 2 ^ 4 + 0xA < 2 ^ (20 + 8 * bytes.length) := by
  have hbytes : bytesNat bytes < 2 ^ (8 * bytes.length) := by
    have := pack_digits_lt (bytes_fit bytes)
    simpa [bytesNat_eq_pack] using this
  rw [pow_add]
  omega

theorem extract_trailerWord {bytes : List Byte} (h : bytes.length < 65536) (lo w : Nat) :
    ((encode (.crcTrailer bytes)).bits.extractLsb' lo w).toNat =
      (bytesNat bytes * 2 ^ 20 + bytes.length * 2 ^ 4 + 0xA) / 2 ^ lo % 2 ^ w := by
  simp only [encode]
  rw [trailerNumber_eq _ h, BitVec.extractLsb'_toNat, BitVec.toNat_ofNat, Nat.mod_eq_of_lt (trailerNumber_lt bytes h),
    Nat.shiftRight_eq_div_pow]

theorem count_encode {bytes : List Byte} (h : bytes.length < 65536) :
    (encode (.crcTrailer bytes)).count = bytes.length := by
  rw [CmdWord.count, extract_trailerWord h]
  omega

theorem trailerByte_encode {bytes : List Byte} (h : bytes.length < 65536) {j : Nat} (hj : j < bytes.length) :
    (encode (.crcTrailer bytes)).trailerByte bytes.length j = bytes[j] := by
  apply BitVec.eq_of_toNat_eq
  have hdiv : (bytesNat bytes * 2 ^ 20 + bytes.length * 2 ^ 4 + 0xA) / 2 ^ 20 = bytesNat bytes := by omega
  rw [CmdWord.trailerByte, extract_trailerWord h, pow_add, ← Nat.div_div_eq_div_mul, hdiv]
  have hdigit := pack_digits_at (bytes_fit bytes) (j := j) (by simpa using hj)
  simpa [← bytesNat_eq_pack] using hdigit

/-! #### All operations -/

/-- The encoder gives every word the length its own code, and count, call for (R50, R58). -/
theorem encode_properLength {i : Instr} (h : i.wellFormed = true) : (encode i).len = (encode i).properLength := by
  rw [CmdWord.properLength, encode_op h]
  cases i with
  | crcTrailer bytes =>
    rw [count_encode (Nat.lt_succ_of_le (of_decide_eq_true h))]
    rfl
  | _ => rfl

theorem four_le_encode_len (i : Instr) : 4 ≤ (encode i).len := by
  cases i with
  | crcTrailer bytes => exact Nat.le_add_right_of_le (by norm_num)
  | _ => simp [encode]

/-- Decoding the word of a well-formed operation gives the operation back. -/
theorem decode_encode {i : Instr} (h : i.wellFormed = true) : decode (encode i) = .ok i := by
  rw [decode_proper (four_le_encode_len i) (encode_properLength h)]
  have hop := encode_op h
  unfold decodeOp
  rw [hop]
  cases i with
  | crcClr | crcTrl | pkClr | pkSeal => rfl
  | reserved7 | reservedB | reservedC | reservedD | reservedE | reservedF => rfl
  | crcBit b => cases b <;> rfl
  | crcByte d => exact congrArg (Decoded.ok ∘ .crcByte) BitVec.extractLsb'_append_eq_left
  | pkPush w v =>
    have hw : (w ++ v ++ 0x5#4).extractLsb' 44 6 = w := by
      rw [extract_append_high _ _ _ _ (by omega)]
      exact BitVec.extractLsb'_append_eq_left
    have hv : (w ++ v ++ 0x5#4).extractLsb' 4 40 = v := by
      rw [extract_append_high _ _ _ _ (by omega)]
      exact BitVec.extractLsb'_append_eq_right
    exact congrArg Decoded.ok (congrArg₂ Instr.pkPush hw hv)
  | encCid o => exact congrArg (Decoded.ok ∘ .encCid) (cidOperands_cidWord h)
  | encCsd fields =>
    have hlen : fields.length = 28 := by simpa [Instr.wellFormed] using h
    refine congrArg (Decoded.ok ∘ .encCsd) (List.ext_getElem (by simp [hlen]) fun j hj hj' => ?_)
    rw [List.getElem_map, List.getElem_range]
    exact csdSlot_encode hlen (hlen ▸ hj')
  | crcTrailer bytes =>
    have hlen : bytes.length < 65536 := Nat.lt_succ_of_le (of_decide_eq_true h)
    refine congrArg (Decoded.ok ∘ .crcTrailer) ?_
    rw [count_encode hlen]
    refine List.ext_getElem (by simp) fun j hj hj' => ?_
    rw [List.getElem_map, List.getElem_range]
    exact trailerByte_encode hlen hj'

end Sys2Proof

/-! ### The obligations of 10_state.md -/

namespace Sys2Proof.Machine

/-- Settles O55: a step is idle, a reset, or one operation on the state with its word taken. -/
theorem stepKeepsInv : Obligations.StepKeepsInv := by
  intro s t hs h
  rcases step_cases h with ⟨-, rfl⟩ | ⟨rest, -, rfl⟩ | ⟨c, rest, i, -, -, hexec⟩
  · exact hs
  · exact machineInv_of_cleared rfl rfl rfl rfl rfl
  · have htaken : MachineInv { s with pending := rest } := hs
    exact exec_keeps_inv htaken hexec

/-- Settles O47: a sealing operation that answers OK has sealed, a fault writes `err` at most, and no other operation but
PK.CLR names `out_valid`. -/
theorem outValidIsWrittenByTheseOnly : Obligations.OutValidIsWrittenByTheseOnly := by
  refine ⟨fun i s t h => ⟨fun hok hi => (exec_sealing_ok hi h hok).outValid, ?_, ?_, ?_⟩, fun s => rfl⟩
  · rintro rfl
    cases h
    rfl
  · intro hn
    obtain ⟨-, hvalid⟩ := exec_fault_keeps h hn
    exact hvalid
  · intro hclr hseal hcid hcsd
    cases i with
    | crcClr | crcBit _ | crcByte _ | crcTrl | crcTrailer _ => cases h; rfl
    | reserved7 | reservedB | reservedC | reservedD | reservedE | reservedF => cases h; rfl
    | pkPush w v =>
      obtain ⟨-, -, hvalid⟩ := execPkPush_frame h
      exact hvalid
    | pkClr => exact absurd rfl hclr
    | pkSeal => exact absurd rfl hseal
    | encCid o => exact absurd rfl (hcid o)
    | encCsd fields => exact absurd rfl (hcsd fields)

/-- Settles O48: what a sealing operation leaves is the seal of `acc`, whose bits 7 to 1 are the CRC (R91). -/
theorem crcIsWrittenByTheseOnly : Obligations.CrcIsWrittenByTheseOnly := by
  intro i s t h
  refine ⟨fun hi hok => ?_, fun hn => (exec_fault_keeps h hn).1, fun hne => ?_⟩
  · obtain ⟨-, hout, hcrc⟩ := exec_sealing_ok hi h hok
    exact ⟨hcrc, by simp [hout, hcrc]⟩
  · cases i with
    | crcClr | crcBit _ | crcByte _ | crcTrailer _ | pkSeal | encCid _ | encCsd _ => simp
    | pkPush w v => exact absurd (execPkPush_frame h).1 hne
    | crcTrl | pkClr | reserved7 | reservedB | reservedC | reservedD | reservedE | reservedF => cases h; exact absurd rfl hne

/-- Settles O49, family by family. -/
theorem operationFrames : Obligations.OperationFrames := by
  intro i s t h
  refine ⟨exec_keeps_host h, ?_, ?_, ?_, ?_, ?_⟩
  · intro hi
    obtain ⟨c, d, rfl⟩ := execCrc_cases hi h
    exact ⟨rfl, rfl, rfl, rfl, rfl⟩
  · rintro rfl
    cases h
    rfl
  · rintro rfl
    cases h
    rfl
  · rintro ⟨w, v, rfl⟩
    exact execPkPush_frame h
  · rintro rfl
    exact execPkSeal_frame h

/-- Settles O57: every word decodes to its operation, so the stream runs as the operations do. -/
theorem streamRunsInIssueOrder : Obligations.StreamRunsInIssueOrder :=
  fun _ _ hwf hs => runSteps_stream (fun i hi => decode_encode (hwf i hi)) hs

/-- Settles O50, by evaluating the reset state. -/
theorem resetValues : Obligations.ResetValues :=
  ⟨rfl, rfl, rfl, rfl, rfl, rfl, rfl⟩

/-- Settles O53, field by field from the concatenation of R19. -/
theorem statusWordLayout : Obligations.StatusWordLayout :=
  ⟨rfl, fun s => ⟨statusWord_fill s, statusWord_outValid s, statusWord_err s, statusWord_top s⟩⟩

/-- Settles O54: the reset state has the packer cleared. -/
theorem resetMeetsInv : Obligations.ResetMeetsInv :=
  machineInv_of_cleared rfl rfl rfl rfl rfl

/-- Settles O56, from what a step is on each of the two streams. -/
theorem stepRunsTheDecodedOperation : Obligations.StepRunsTheDecodedOperation :=
  ⟨fun _ _ _ _ hp hd => step_issue hp hd, fun _ h => step_idle h⟩

end Sys2Proof.Machine

/-! ### The obligation of 20_memory.md: the views of the output register -/

namespace Sys2Proof.Machine

@[simp] theorem length_registerBytes (r : Register) : (registerBytes r).length = 16 := by
  simp [registerBytes]

@[simp] theorem length_serialStream (r : Register) : (serialStream r).length = 128 := by
  simp [serialStream]

theorem getElem?_registerBytes (r : Register) {k : Nat} (hk : k < 16) :
    (registerBytes r)[k]? = some (registerByte r k) := by
  simp [registerBytes, hk]

theorem getElem?_serialStream (r : Register) {j : Nat} (hj : j < 128) :
    (serialStream r)[j]? = some (serialBit r j) := by
  simp [serialStream, hj]

/-- Byte `k`, read from its bit 7 down, is stream bits `8k` to `8k + 7` (R33). -/
theorem getLsbD_registerByte (r : Register) {k j : Nat} (hk : k < 16) (hj : j < 8) :
    (registerByte r k).getLsbD (7 - j) = serialBit r (8 * k + j) := by
  have hbit : 7 - j < 8 := by omega
  have hpos : 120 - 8 * k + (7 - j) = 127 - (8 * k + j) := by omega
  simp only [registerByte, serialBit, BitVec.getLsbD_extractLsb', hbit, hpos, decide_true, Bool.true_and]

/-- The payload leads the stream, its bit 119 first (R34). -/
theorem getLsbD_payload (r : Register) {p : Nat} (hp : p < 120) :
    (r.extractLsb' 8 120).getLsbD p = serialBit r (119 - p) := by
  have hpos : 8 + p = 127 - (119 - p) := by omega
  simp only [serialBit, BitVec.getLsbD_extractLsb', hp, hpos, decide_true, Bool.true_and]

/-- Settles O29: byte and payload bits are each placed in the serial stream, where stream bit `119 - p` lies in byte
`(119 - p) / 8`. -/
theorem viewsOfOutAgree : Obligations.ViewsOfOutAgree := by
  refine fun r => ⟨fun k hk => getElem?_registerBytes r hk, length_registerBytes r,
    fun j hj => getElem?_serialStream r hj, length_serialStream r, fun k hk j hj => ?_, fun p hp => ?_⟩
  · rw [getElem?_serialStream r (by omega), getLsbD_registerByte r hk hj]
  · rw [getLsbD_payload r hp, getLsbD_registerByte r (by omega) (Nat.mod_lt _ (by decide)), Nat.div_add_mod]

end Sys2Proof.Machine

/-! ### The obligations of 30_encoding.md -/

/-! #### Words that agree on a field -/

namespace Sys2Proof

/-- Two words, of whatever lengths, hold the same `w` bits from bit `lo` up. -/
def AgreeOn {n m : Nat} (x : BitVec n) (y : BitVec m) (lo w : Nat) : Prop :=
  x.extractLsb' lo w = y.extractLsb' lo w

/-- Agreement on two adjacent fields is agreement on both together. -/
theorem AgreeOn.append {n m : Nat} {x : BitVec n} {y : BitVec m} {lo v w : Nat} (hlow : AgreeOn x y lo v)
    (hhigh : AgreeOn x y (lo + v) w) : AgreeOn x y lo (w + v) := by
  unfold AgreeOn at *
  rw [← BitVec.extractLsb'_append_extractLsb'_eq_extractLsb' rfl, hlow, hhigh,
    BitVec.extractLsb'_append_extractLsb'_eq_extractLsb' rfl]

/-- Agreement on `k` fields of `w` bits side by side is agreement on all of them. -/
theorem AgreeOn.slots {n m : Nat} {x : BitVec n} {y : BitVec m} {lo w k : Nat}
    (h : ∀ j < k, AgreeOn x y (lo + w * j) w) : AgreeOn x y lo (w * k) := by
  induction k with
  | zero => exact BitVec.eq_of_zero_length rfl
  | succ k ih =>
    rw [Nat.mul_succ, Nat.add_comm]
    exact (ih fun j hj => h j (Nat.lt_succ_of_lt hj)).append (h k (Nat.lt_succ_self k))

/-- The same with the fields counted from the most significant one. -/
theorem AgreeOn.slots_rev {n m : Nat} {x : BitVec n} {y : BitVec m} {lo w k : Nat}
    (h : ∀ j < k, AgreeOn x y (lo + w * (k - 1 - j)) w) : AgreeOn x y lo (w * k) :=
  .slots fun j hj => by
    have := h (k - 1 - j) (by omega)
    rwa [show k - 1 - (k - 1 - j) = j by omega] at this

/-- Command words of one length that agree on all its bits are one word. -/
theorem CmdWord.eq_of_agreeOn {c c' : CmdWord} {n : Nat} (hc : c.len = n) (hc' : c'.len = n)
    (h : AgreeOn c.bits c'.bits 0 n) : c = c' := by
  obtain ⟨len, x⟩ := c
  obtain ⟨len', y⟩ := c'
  obtain rfl : len = n := hc
  obtain rfl : len' = len := hc'
  rw [AgreeOn, extract_whole, extract_whole] at h
  exact congrArg (CmdWord.mk len') h

/-! #### What a word of each operation carries -/

/-- The operands stand in the word where the format of the operation has them (R51 to R58). -/
def Carries (c : CmdWord) : Instr → Prop
  | .crcBit b => c.bits.getLsbD 4 = b
  | .crcByte d => c.bits.extractLsb' 4 8 = d
  | .pkPush w v => c.bits.extractLsb' 44 6 = w ∧ c.bits.extractLsb' 4 40 = v
  | .encCid o => c.cidOperands = o
  | .encCsd fields => (List.range 28).map c.csdSlot = fields
  | .crcTrailer bytes => (List.range c.count).map (c.trailerByte c.count) = bytes
  | _ => True

theorem decodeOp_eq_ok_iff {c : CmdWord} {i : Instr} :
    decodeOp c = .ok i ↔ c.op = (Laws.tableCode i).toNat ∧ Carries c i := by
  constructor
  · intro h
    have hlt := op_lt c
    unfold decodeOp at h
    generalize c.op = op at h hlt
    interval_cases op <;> cases h <;> simp [Laws.tableCode, Carries]
  · rintro ⟨hop, hc⟩
    unfold decodeOp
    rw [hop]
    cases i with
    | crcClr | crcTrl | pkClr | pkSeal => rfl
    | reserved7 | reservedB | reservedC | reservedD | reservedE | reservedF => rfl
    | crcBit b => exact congrArg (Decoded.ok ∘ .crcBit) hc
    | crcByte d => exact congrArg (Decoded.ok ∘ .crcByte) hc
    | pkPush w v => exact congrArg Decoded.ok (congrArg₂ Instr.pkPush hc.1 hc.2)
    | encCid o => exact congrArg (Decoded.ok ∘ .encCid) hc
    | encCsd fields => exact congrArg (Decoded.ok ∘ .encCsd) hc
    | crcTrailer bytes => exact congrArg (Decoded.ok ∘ .crcTrailer) hc

/-- A word decodes to an operation exactly if it has the operation's code, the length the code calls for, and the operands
at their bits. -/
theorem decode_eq_ok_iff {c : CmdWord} {i : Instr} :
    decode c = .ok i ↔
      4 ≤ c.len ∧ c.len = c.properLength ∧ c.op = (Laws.tableCode i).toNat ∧ Carries c i := by
  rw [← decodeOp_eq_ok_iff]
  exact ⟨proper_of_decode, fun ⟨h4, hlen, h⟩ => (decode_proper h4 hlen).trans h⟩

/-- No field of a word can hold an operand that is too wide for it. -/
theorem Carries.wellFormed {c : CmdWord} {i : Instr} (h : Carries c i) : i.wellFormed = true := by
  cases i with
  | encCid o =>
    obtain rfl : c.cidOperands = o := h
    simp [Instr.wellFormed, CidOperands.wellFormed, CmdWord.cidOperands, field_fits, CmdWord.pnm]
  | encCsd fields =>
    obtain rfl : (List.range 28).map c.csdSlot = fields := h
    simp [Instr.wellFormed]
  | crcTrailer bytes =>
    obtain rfl : (List.range c.count).map (c.trailerByte c.count) = bytes := h
    have hcount : c.count < 65536 := (c.bits.extractLsb' 4 16).isLt
    simpa [Instr.wellFormed] using Nat.le_of_lt_succ hcount
  | _ => rfl

/-! #### A word has no bit beside its code and its operands -/

theorem agreeOn_of_field {c c' : CmdWord} {lo w : Nat} (h : c.field lo w = c'.field lo w) :
    AgreeOn c.bits c'.bits lo w :=
  BitVec.eq_of_toNat_eq (Int.ofNat_inj.1 h)

theorem agreeOn_of_cidOperands {c c' : CmdWord} (h : c.cidOperands = c'.cidOperands) :
    AgreeOn c.bits c'.bits 4 119 := by
  simp only [CmdWord.cidOperands, CidOperands.mk.injEq] at h
  obtain ⟨hmid, hoid, hpnm, hprv, hpsn, hrsv, hmdt⟩ := h
  have hname : AgreeOn c.bits c'.bits 59 40 := .slots_rev (w := 8) (k := 5) fun j hj => by
    rw [show 59 + 8 * (5 - 1 - j) = 91 - 8 * j by omega]
    exact List.map_inj_left.1 hpnm j (List.mem_range.2 hj)
  exact (agreeOn_of_field hmdt).append <| (agreeOn_of_field hrsv).append <| (agreeOn_of_field hpsn).append <|
    (agreeOn_of_field hprv).append <| hname.append <| (agreeOn_of_field hoid).append (agreeOn_of_field hmid)

theorem agreeOn_of_csdSlots {c c' : CmdWord} (h : (List.range 28).map c.csdSlot = (List.range 28).map c'.csdSlot) :
    AgreeOn c.bits c'.bits 4 1288 :=
  .slots_rev (w := 46) (k := 28) fun j hj => by
    have hslot := List.map_inj_left.1 h j (List.mem_range.2 hj)
    simp only [CmdWord.csdSlot, CsdField.mk.injEq] at hslot
    obtain ⟨hlen, hval⟩ := hslot
    exact AgreeOn.append hval hlen

theorem agreeOn_of_trailerBytes {c c' : CmdWord} {n : Nat}
    (h : (List.range n).map (c.trailerByte n) = (List.range n).map (c'.trailerByte n)) :
    AgreeOn c.bits c'.bits 20 (8 * n) :=
  .slots_rev fun j hj => List.map_inj_left.1 h j (List.mem_range.2 hj)

/-- A word that decodes has the length of its operation's row. -/
theorem len_of_decode {c : CmdWord} {i : Instr} (h : decode c = .ok i) : c.len = Laws.tableLength i := by
  obtain ⟨-, hlen, hop, hc⟩ := decode_eq_ok_iff.1 h
  rw [hlen, CmdWord.properLength, hop]
  cases i with
  | crcTrailer bytes =>
    obtain rfl : (List.range c.count).map (c.trailerByte c.count) = bytes := hc
    simp [Laws.tableCode, Laws.tableLength, opFormat, formatLength]
  | _ => rfl

/-- No operation has two words. -/
theorem eq_of_decode_eq {c c' : CmdWord} {i : Instr} (h : decode c = .ok i) (h' : decode c' = .ok i) : c = c' := by
  obtain ⟨-, -, hop, hc⟩ := decode_eq_ok_iff.1 h
  obtain ⟨-, -, hop', hc'⟩ := decode_eq_ok_iff.1 h'
  have hcode : AgreeOn c.bits c'.bits 0 4 := BitVec.eq_of_toNat_eq (hop.trans hop'.symm)
  refine CmdWord.eq_of_agreeOn (len_of_decode h) (len_of_decode h') ?_
  cases i with
  | crcClr | crcTrl | pkClr | pkSeal => exact hcode
  | reserved7 | reservedB | reservedC | reservedD | reservedE | reservedF => exact hcode
  | crcBit b =>
    have hbit : AgreeOn c.bits c'.bits 4 1 := by
      ext k hk
      obtain rfl : k = 0 := by omega
      simpa using hc.trans hc'.symm
    exact hcode.append hbit
  | crcByte d => exact hcode.append (hc.trans hc'.symm)
  | pkPush w v =>
    obtain ⟨hw, hv⟩ := hc
    obtain ⟨hw', hv'⟩ := hc'
    exact hcode.append (.append (hv.trans hv'.symm) (hw.trans hw'.symm))
  | encCid o => exact hcode.append (agreeOn_of_cidOperands (hc.trans hc'.symm))
  | encCsd fields => exact hcode.append (agreeOn_of_csdSlots (hc.trans hc'.symm))
  | crcTrailer bytes =>
    have hbytes : (List.range c.count).map (c.trailerByte c.count) =
        (List.range c'.count).map (c'.trailerByte c'.count) := hc.trans hc'.symm
    have hcount : c'.count = c.count := by simpa using (congrArg List.length hbytes).symm
    have hlen : bytes.length = c.count := by simpa using (congrArg List.length hc).symm
    rw [hcount] at hbytes
    rw [Laws.tableLength, hlen, Nat.add_comm]
    have hn : AgreeOn c.bits c'.bits 4 16 := BitVec.eq_of_toNat_eq hcount.symm
    exact (hcode.append hn).append (agreeOn_of_trailerBytes hbytes)

/-! #### The round trips, and which words decode -/

/-- Settles O1, operation by operation: the length and the code are the row's, and every operand stands at its bits. -/
theorem decodeEncodeRoundTrip : Obligations.DecodeEncodeRoundTrip :=
  fun _ h => decode_encode h

/-- Settles O2: the word of the decoded operation decodes to the same operation, and no operation has two words. -/
theorem encodeDecodeRoundTrip : Obligations.EncodeDecodeRoundTrip := by
  intro c i h
  obtain ⟨-, -, -, hc⟩ := decode_eq_ok_iff.1 h
  exact ⟨hc.wellFormed, eq_of_decode_eq (decode_encode hc.wellFormed) h⟩

/-- A word of its proper length decodes, whatever its code. -/
theorem exists_decode_iff {c : CmdWord} : (∃ i, decode c = .ok i) ↔ 4 ≤ c.len ∧ c.len = c.properLength := by
  constructor
  · rintro ⟨i, h⟩
    obtain ⟨h4, hlen, -⟩ := proper_of_decode h
    exact ⟨h4, hlen⟩
  · rintro ⟨h4, hlen⟩
    rw [decode_proper h4 hlen]
    exact decodeOp_total c

/-- Settles O3, with the proper length computed for each of the sixteen codes. -/
theorem wordsOfTheProperLengthDecode : Obligations.WordsOfTheProperLengthDecode := by
  intro c op proper
  have hproper : c.properLength = proper := by
    have hlt : op < 16 := op_lt c
    simp only [CmdWord.properLength, show c.op = op from rfl, proper]
    clear_value op
    interval_cases op <;> rfl
  rw [← hproper]
  exact exists_decode_iff

/-! #### The formats, bit by bit -/

/-- A word with the code of an operation, the length its format has, and the operands at their bits decodes to it. -/
theorem decode_of_carries {n : Nat} {x : BitVec n} {i : Instr} (hop : x.extractLsb' 0 4 = Laws.tableCode i)
    (hn : 4 ≤ n) (hlen : n = formatLength (opFormat (Laws.tableCode i).toNat) (CmdWord.count ⟨n, x⟩))
    (hc : Carries ⟨n, x⟩ i) : decode ⟨n, x⟩ = .ok i := by
  have hcode : CmdWord.op ⟨n, x⟩ = (Laws.tableCode i).toNat := congrArg BitVec.toNat hop
  refine decode_eq_ok_iff.2 ⟨hn, ?_, hcode, hc⟩
  rw [CmdWord.properLength, hcode]
  exact hlen

/-- Settles O7: the count fixes the length, and it has 16 bits. -/
theorem formatSDecodes : Obligations.FormatSDecodes := by
  intro n x hop hn
  have hcount : CmdWord.count ⟨20 + 8 * n, x⟩ = n := hn
  have hlt : n < 65536 := hn ▸ (x.extractLsb' 4 16).isLt
  refine ⟨(List.range n).map (CmdWord.trailerByte ⟨20 + 8 * n, x⟩ n), ?_, by simp, Nat.le_of_lt_succ hlt, ?_⟩
  · apply decode_of_carries hop (Nat.le_add_right_of_le (by norm_num))
    · rw [hcount]; rfl
    · rw [Carries, hcount]
  · intro j hj
    simp [hj, CmdWord.trailerByte]

/-- Settles O4, format by format. -/
theorem shortFormatsDecode : Obligations.ShortFormatsDecode :=
  ⟨⟨rfl, rfl, rfl, rfl⟩, fun _ hop => decode_of_carries hop (by norm_num) rfl rfl,
    fun _ hop => decode_of_carries hop (by norm_num) rfl rfl,
    fun _ hop => decode_of_carries hop (by norm_num) rfl ⟨rfl, rfl⟩⟩

/-- An operand that fits its width is in the range R106 states for it. -/
theorem inRange_of_fitsBits {w : Nat} {x hi : Int} (hw : (2 : Int) ^ w = hi + 1) (h : fitsBits w x = true) :
    Machine.inRange hi x = true := by
  simp only [fitsBits, Machine.inRange, Bool.and_eq_true, decide_eq_true_eq] at h ⊢
  omega

/-- Operands a command word can carry pass the check of ENC.CID (R55, R106). -/
theorem cidOperandsOk_of_wellFormed {o : CidOperands} (h : o.wellFormed = true) : Machine.cidOperandsOk o = true := by
  simp only [CidOperands.wellFormed, Bool.and_eq_true] at h
  obtain ⟨⟨⟨⟨⟨⟨hmid, hoid⟩, hpnm⟩, hprv⟩, hpsn⟩, hrsv⟩, hmdt⟩ := h
  simp only [Machine.cidOperandsOk, Bool.and_eq_true]
  exact ⟨⟨⟨⟨⟨⟨inRange_of_fitsBits rfl hmid, inRange_of_fitsBits rfl hoid⟩, hpnm⟩, inRange_of_fitsBits rfl hprv⟩,
    inRange_of_fitsBits rfl hpsn⟩, inRange_of_fitsBits rfl hrsv⟩, inRange_of_fitsBits rfl hmdt⟩

/-- The five bytes of PNM, put together again, are its 40 bits (R59). -/
theorem pnmBits_pnm (c : CmdWord) : pnmBits c.pnm = c.bits.extractLsb' 59 40 := by
  have hlen : c.pnm.length = 5 := by simp [CmdWord.pnm]
  have hagree : AgreeOn (pnmBits c.pnm) (c.bits.extractLsb' 59 40) 0 40 := .slots_rev (w := 8) (k := 5) fun j hj => by
    rw [show 0 + 8 * (5 - 1 - j) = 32 - 8 * j by omega, AgreeOn, extract_pnmBits hlen hj,
      extract_extract _ (by omega), show 59 + (32 - 8 * j) = 91 - 8 * j by omega]
    simp [CmdWord.pnm]
  rwa [AgreeOn, extract_whole, extract_whole] at hagree

/-- Settles O5: the word carries its own operands, and no field is too narrow for what it holds. -/
theorem formatCidDecodes : Obligations.FormatCidDecodes := by
  intro x hop
  have hc : Carries ⟨123, x⟩ (.encCid (CmdWord.cidOperands ⟨123, x⟩)) := rfl
  exact ⟨CmdWord.cidOperands ⟨123, x⟩, decode_of_carries hop (by norm_num) rfl hc,
    cidOperandsOk_of_wellFormed hc.wellFormed, rfl, rfl, rfl, pnmBits_pnm _, rfl, rfl, rfl, rfl⟩

/-- Settles O6: the word carries its own 28 slots. -/
theorem formatCsdDecodes : Obligations.FormatCsdDecodes := by
  intro x hop
  refine ⟨(List.range 28).map (CmdWord.csdSlot ⟨1292, x⟩), decode_of_carries hop (by norm_num) rfl rfl, by simp, ?_⟩
  intro i hi
  simp [hi, CmdWord.csdSlot]

end Sys2Proof

/-! #### The trailer byte -/

namespace Sys2Proof.Machine

/-- The trailer is the CRC followed by the stop bit, so nothing is shifted out (R74). -/
theorem trailerOf_eq_append (c : Crc) : trailerOf c = c ++ 1#1 := by
  ext i hi
  rw [BitVec.getElem_append]
  rcases i with _ | i
  · simp [trailerOf]
  · have hi7 : i < 7 := by omega
    simp [trailerOf, BitVec.getLsbD_eq_getElem hi7]

theorem toNat_trailerOf (c : Crc) : (trailerOf c).toNat = (c.toNat <<< 1) ||| 1 := by
  rw [trailerOf_eq_append, BitVec.toNat_append]
  rfl

/-- An odd byte is the trailer of its upper seven bits. -/
theorem trailerOf_extract {t : Byte} (h : t.getLsbD 0 = true) : trailerOf (t.extractLsb' 1 7) = t := by
  have hstop : t.extractLsb' 0 1 = 1#1 := by
    ext k hk
    obtain rfl : k = 0 := by omega
    simpa using h
  rw [trailerOf_eq_append, ← hstop]
  exact (BitVec.extractLsb'_append_extractLsb'_eq_extractLsb' (Nat.zero_add 1).symm).trans (extract_whole t)

/-- A byte `d` with the CRC7 `c`. From `d·x^7 = q·(x^7 + x^3 + 1) + c` the quotient `q` is `c·(x^3 + 1)^-1` modulo `x^7`, with
`(x^3 + 1)^-1 = x^6 + x^3 + 1`, and `d` is `q·(x^7 + x^3 + 1)` divided by `x^7`. -/
def byteOfCrc (c : Crc) : Byte :=
  let q := c ^^^ (c <<< 3) ^^^ (c <<< 6)
  (q ^^^ (q >>> 4)).setWidth 8

theorem crc7Bytes_byteOfCrc : ∀ c : Crc, crc7Bytes [byteOfCrc c] = c := by decide +kernel

/-- Settles O14: the trailer as CRC and stop bit side by side, and every CRC7 is the CRC7 of a byte. -/
theorem trailerByteShape : Obligations.TrailerByteShape := by
  refine ⟨toNat_trailerOf, fun bytes => ⟨rfl, extract_crc_trailerOf _, getLsbD_zero_trailerOf _, toNat_trailerOf _⟩, ?_⟩
  intro t ht
  exact ⟨byteOfCrc (t.extractLsb' 1 7), by rw [trailer, crc7Bytes_byteOfCrc, trailerOf_extract ht]⟩

/-! #### The places of the CSD fields -/

theorem csdOperandsOk_iff {widths : List Nat} {fields : List CsdField} :
    csdOperandsOk widths fields = true ↔ Config.csdWidthsOk widths = true ∧ claimedWidths fields = widths ∧
      (∀ f ∈ fields, f.val.toNat < 2 ^ f.len.toNat) ∧ (claimedWidths fields).sum = 120 := by
  simp [csdOperandsOk, fieldFits, and_assoc]

theorem length_of_csdWidthsOk {widths : List Nat} (h : Config.csdWidthsOk widths = true) : widths.length = 28 := by
  simp only [Config.csdWidthsOk, Bool.and_eq_true, beq_iff_eq] at h
  exact h.1.1

theorem totalWidth_asPairs (fields : List CsdField) : totalWidth (asPairs fields) = (claimedWidths fields).sum := by
  simp [totalWidth, asPairs, claimedWidths, Function.comp_def]

theorem allFit_asPairs {fields : List CsdField} (h : ∀ f ∈ fields, f.val.toNat < 2 ^ f.len.toNat) :
    AllFit (asPairs fields) := by
  intro p hp
  obtain ⟨f, hf, rfl⟩ := List.mem_map.1 hp
  exact h f hf

/-- On operands that pass, nothing is cut off the values or off the payload (R108, R109). -/
theorem toNat_csdPayload {widths : List Nat} {fields : List CsdField} (h : csdOperandsOk widths fields = true) :
    (csdPayload fields).toNat = (pack (asPairs fields)).1 := by
  obtain ⟨-, -, hfit, hsum⟩ := csdOperandsOk_iff.1 h
  have hpairs : (fields.map fun f => (f.len.toNat, f.val.toNat % 2 ^ f.len.toNat)) = asPairs fields :=
    List.map_congr_left fun f hf => by rw [Nat.mod_eq_of_lt (hfit f hf)]
  have hlt := pack_lt _ (allFit_asPairs hfit)
  rw [totalWidth_asPairs, hsum] at hlt
  rw [csdPayload, hpairs, BitVec.toNat_ofNat, Nat.mod_eq_of_lt hlt]

/-- Above its trailer byte a sealed register is the payload (R91). -/
theorem toNat_sealPayload_shiftRight (a : Payload) (k : Nat) : (sealPayload a).toNat >>> (8 + k) = a.toNat >>> k := by
  have hbyte : (trailer (payloadBytes a)).toNat < 2 ^ 8 := (trailer (payloadBytes a)).isLt
  rw [sealPayload, BitVec.toNat_append, Nat.shiftRight_add, Nat.shiftRight_or_distrib, Nat.shiftLeft_shiftRight,
    Nat.shiftRight_eq_div_pow _ 8, Nat.div_eq_of_lt hbyte, Nat.or_zero]

/-- The widths up to and with field `i`. -/
theorem sum_take_claimedWidths {fields : List CsdField} {i : Nat} {f : CsdField} (hf : fields[i]? = some f) :
    ((claimedWidths fields).take (i + 1)).sum = ((claimedWidths fields).take i).sum + f.len.toNat := by
  rw [List.take_add_one]
  simp [claimedWidths, hf]

/-- What stands at the place of CSD field `i`: below it only the fields after it. -/
theorem pack_asPairs_at {fields : List CsdField} {i : Nat} {f : CsdField} (hf : fields[i]? = some f)
    (hfit : ∀ g ∈ fields, g.val.toNat < 2 ^ g.len.toNat) :
    ((pack (asPairs fields)).1 >>> ((claimedWidths fields).sum - ((claimedWidths fields).take (i + 1)).sum)) %
      2 ^ f.len.toNat = f.val.toNat := by
  obtain ⟨hi, rfl⟩ := List.getElem?_eq_some_iff.1 hf
  have hsplit : asPairs fields = asPairs (fields.take i) ++
      (fields[i].len.toNat, fields[i].val.toNat) :: asPairs (fields.drop (i + 1)) := by
    simp only [asPairs]
    rw [← List.map_cons (f := fun g : CsdField => (g.len.toNat, g.val.toNat)), ← List.map_append,
      ← List.drop_eq_getElem_cons hi, List.take_append_drop]
  have hbelow : (claimedWidths fields).sum - ((claimedWidths fields).take (i + 1)).sum =
      totalWidth (asPairs (fields.drop (i + 1))) := by
    rw [totalWidth_asPairs, ← List.sum_take_add_sum_drop (claimedWidths fields) (i + 1), Nat.add_sub_cancel_left,
      claimedWidths, ← List.map_drop, claimedWidths]
  rw [hbelow, Nat.shiftRight_eq_div_pow, hsplit]
  exact pack_field_at _ _ (fields[i].len.toNat, fields[i].val.toNat) (hsplit ▸ allFit_asPairs hfit)

/-- Settles O35: field `i` is read at its place in the packed payload, and the register holds the payload eight bits up. -/
theorem csdFieldPlacement : Obligations.CsdFieldPlacement := by
  intro fields s hok
  obtain ⟨hwidths, hclaimed, hfit, hsum⟩ := csdOperandsOk_iff.1 hok
  have hexec : exec (.encCsd fields) s = .next (encodePayload (csdPayload fields) s) := by
    simp [exec, execEncCsd, hok]
  refine ⟨_, hexec, ?_, rfl, fun i f hf => ?_⟩
  · rw [List.take_of_length_le (length_of_csdWidthsOk hwidths).le, ← hclaimed, hsum]
  · have hat := pack_asPairs_at hf hfit
    have hle : ((claimedWidths fields).take (i + 1)).sum ≤ 120 :=
      hsum ▸ (List.take_sublist _ _).sum_le_sum fun _ _ => Nat.zero_le _
    rw [hsum, ← toNat_csdPayload hok] at hat
    rw [← hclaimed, encodePayload_acc, encodePayload_out,
      show 128 - ((claimedWidths fields).take (i + 1)).sum = 8 + (120 - ((claimedWidths fields).take (i + 1)).sum) by
        omega, toNat_sealPayload_shiftRight]
    exact ⟨hat, hat, sum_take_claimedWidths hf⟩

/-! #### Responses -/

/-- The data of operation `i`, from `s` to `t`, when it answers OK (R62). -/
def okData (i : Instr) (s t : State) : ResponseData :=
  match i with
  | .crcTrl => .trailer (trailerOf s.crc)
  | .crcTrailer bytes => .trailer (trailer bytes)
  | .pkSeal => .register (outBytes t)
  | .encCid _ => .register (outBytes t)
  | .encCsd _ => .register (outBytes t)
  | _ => .nothing

/-- Every operation answers OK with its data, or a fault code without data: its own or the pending one. -/
theorem exec_answers {i : Instr} {s t : State} (h : exec i s = .next t) :
    t.response = some ⟨0#2, okData i s t⟩ ∨
      ∃ k, k ≠ 0#2 ∧ (k = s.err ∨ k = 1#2 ∨ k = 2#2) ∧ t.response = some ⟨k, .nothing⟩ := by
  cases i with
  | crcClr | crcBit _ | crcByte _ | crcTrl | crcTrailer _ | pkClr => cases h; exact .inl rfl
  | reserved7 | reservedB | reservedC | reservedD | reservedE | reservedF =>
    cases h
    exact .inr ⟨2#2, by decide, .inr (.inr rfl), rfl⟩
  | pkPush w v =>
    rcases execPkPush_cases h with ⟨he, rfl⟩ | ⟨-, -, rfl⟩ | ⟨-, -, rfl⟩
    · exact .inr ⟨s.err, he, .inl rfl, rfl⟩
    · exact .inr ⟨1#2, by decide, .inr (.inl rfl), rfl⟩
    · exact .inl rfl
  | pkSeal =>
    rcases execPkSeal_cases h with ⟨he, rfl⟩ | ⟨-, -, rfl⟩ | ⟨-, -, rfl⟩
    · exact .inr ⟨s.err, he, .inl rfl, rfl⟩
    · exact .inr ⟨1#2, by decide, .inr (.inl rfl), rfl⟩
    · exact .inl rfl
  | encCid o =>
    rcases execEncCid_cases h with ⟨-, rfl⟩ | ⟨-, rfl⟩
    · exact .inl rfl
    · exact .inr ⟨1#2, by decide, .inr (.inl rfl), rfl⟩
  | encCsd fields =>
    rcases execEncCsd_cases h with ⟨-, rfl⟩ | ⟨-, rfl⟩
    · exact .inl rfl
    · exact .inr ⟨1#2, by decide, .inr (.inl rfl), rfl⟩

/-- Three of the four status codes have a meaning (R18). -/
theorem code_legal_of_ne_three {k : Code} (h : k ≠ 3#2) : k = 0#2 ∨ k = 1#2 ∨ k = 2#2 := by
  revert k
  decide

/-- Settles O45: an operation answers OK with its data, or a fault code, which is 1 or 2 unless it is the pending one. -/
theorem responsesCarryTheirData : Obligations.ResponsesCarryTheirData := by
  intro i s
  obtain ⟨t, ht⟩ := exec_completes i s
  rcases exec_answers ht with hr | ⟨k, hk, hcode, hr⟩
  · exact ⟨t, 0#2, okData i s t, ht, hr, fun hne => absurd rfl hne, fun _ => by cases i <;> rfl, fun _ => .inl rfl⟩
  · refine ⟨t, k, .nothing, ht, hr, fun _ => rfl, fun h0 => absurd h0 hk, fun he => ?_⟩
    rcases hcode with rfl | hcode
    · exact code_legal_of_ne_three he
    · exact .inr hcode

end Sys2Proof.Machine

/-! ### The obligations of 40_crc7.md -/

namespace Sys2Proof.Machine

/-! #### One step of the register -/

/-- Settles O9: the shift, and the taps of the polynomial where the feedback bit is set. -/
theorem crcStepIsTheXorNetwork : Obligations.CrcStepIsTheXorNetwork := by
  intro c b
  unfold crc7Step
  cases c.getLsbD 6 ^^ b <;> simp [Config.crcPoly]

/-- A data bit that equals the register's top bit leaves a plain shift: nothing is fed back. -/
theorem crc7Step_topBit (c : Crc) {k : Nat} (hk : k ≤ 6) :
    crc7Step (c <<< k) (c.getLsbD (6 - k)) = c <<< (k + 1) := by
  have htop : (c <<< k).getLsbD 6 = c.getLsbD (6 - k) := by
    rw [BitVec.getLsbD_shiftLeft]
    simp [hk]
  simp only [crc7Step, htop, Bool.xor_self, BitVec.shiftLeft_add]
  rfl

/-- A register fed its own bits from the top is shifted out. -/
theorem crc7Bits_topBits (c : Crc) {n : Nat} (hn : n ≤ 7) :
    crc7Bits c ((List.range n).map fun k => c.getLsbD (6 - k)) = c <<< n := by
  induction n with
  | zero => simp
  | succ n ih =>
    rw [List.range_succ, List.map_append, crc7Bits_append, ih (by omega)]
    exact crc7Step_topBit c (by omega)

/-- After all its seven bits the register is 0 (R79 L5). -/
theorem crc7Bits_ownBits (c : Crc) :
    crc7Bits c [c.getLsbD 6, c.getLsbD 5, c.getLsbD 4, c.getLsbD 3, c.getLsbD 2, c.getLsbD 1, c.getLsbD 0] = 0x00#7 :=
  (crc7Bits_topBits c le_rfl).trans (BitVec.shiftLeft_eq_zero le_rfl)

/-- Above the stop bit a trailer has the bits of the CRC (R74). -/
theorem getLsbD_succ_trailerOf (c : Crc) (k : Nat) : (trailerOf c).getLsbD (k + 1) = c.getLsbD k := by
  rw [trailerOf_eq_append, BitVec.getLsbD_append, if_neg (by omega), Nat.add_sub_cancel]

/-- The bits of a trailer, as the register takes them, are those of the CRC and then the stop bit (R74). -/
theorem bitsOfByte_trailerOf (c : Crc) :
    bitsOfByte (trailerOf c) = [c.getLsbD 6, c.getLsbD 5, c.getLsbD 4, c.getLsbD 3, c.getLsbD 2, c.getLsbD 1,
      c.getLsbD 0] ++ [true] := by
  simp only [bitsOfByte, getLsbD_succ_trailerOf, getLsbD_zero_trailerOf, List.cons_append, List.nil_append]

/-- Settles O13: the CRC bits shift the register out, and the stop bit then feeds back the polynomial. -/
theorem trailerSelfChecks : Obligations.TrailerSelfChecks := by
  refine fun bytes => ⟨crc7Bits_ownBits _, ?_⟩
  calc crc7Bytes (bytes ++ [trailer bytes])
      = crc7Bits (crc7Bytes bytes) (bitsOfByte (trailerOf (crc7Bytes bytes))) := crc7Bytes_append _ _
    _ = crc7Bits 0x00#7 [true] := by rw [bitsOfByte_trailerOf, crc7Bits_append, crc7Bits_ownBits]
    _ = 0x09#7 := rfl

/-! #### Linearity -/

/-- A fold over GF(2) is additive when its step is. -/
theorem foldl_zipWith_xor {α : Type} {f : Crc → α → Crc} {add : α → α → α}
    (hf : ∀ c₁ c₂ a b, f (c₁ ^^^ c₂) (add a b) = f c₁ a ^^^ f c₂ b) {xs ys : List α} (h : xs.length = ys.length)
    (c₁ c₂ : Crc) : (List.zipWith add xs ys).foldl f (c₁ ^^^ c₂) = xs.foldl f c₁ ^^^ ys.foldl f c₂ := by
  induction xs generalizing ys c₁ c₂ with
  | nil =>
    obtain rfl := List.length_eq_zero_iff.1 h.symm
    rfl
  | cons x xs ih =>
    obtain _ | ⟨y, ys⟩ := ys
    · cases h
    · rw [List.zipWith_cons_cons, List.foldl_cons, hf]
      exact ih (Nat.succ.inj h) _ _

theorem crc7Bits_xor (c₁ c₂ : Crc) {xs ys : List Bool} (h : xs.length = ys.length) :
    crc7Bits (c₁ ^^^ c₂) (List.zipWith (fun a b => a ^^ b) xs ys) = crc7Bits c₁ xs ^^^ crc7Bits c₂ ys :=
  foldl_zipWith_xor crc7Step_xor h c₁ c₂

theorem crc7Byte_xor (c₁ c₂ : Crc) (a b : Byte) :
    crc7Byte (c₁ ^^^ c₂) (a ^^^ b) = crc7Byte c₁ a ^^^ crc7Byte c₂ b := by
  have hbits : bitsOfByte (a ^^^ b) = List.zipWith (fun a b => a ^^ b) (bitsOfByte a) (bitsOfByte b) := by
    simp [bitsOfByte]
  rw [crc7Byte, hbits]
  exact crc7Bits_xor c₁ c₂ rfl

/-- Settles O11: the step is additive, so the bit fold is, so the byte step is, so the byte fold is. -/
theorem crcIsLinear : Obligations.CrcIsLinear :=
  ⟨fun c₁ c₂ _ _ h => crc7Bits_xor c₁ c₂ h, fun _ _ h => foldl_zipWith_xor crc7Byte_xor h Config.crcInit Config.crcInit⟩

/-! #### Leading zeros -/

/-- The start value is a fixed point of the zero byte. -/
theorem crc7Bytes_zeros (k : Nat) : crc7Bytes (List.replicate k 0x00#8) = 0x00#7 := by
  induction k with
  | zero => rfl
  | succ k ih => exact ih

/-- Settles O12: after the zero bytes the register still holds its start value. -/
theorem leadingZerosDoNotCount : Obligations.LeadingZerosDoNotCount := by
  intro k bytes
  refine ⟨?_, ?_⟩
  · rw [crc7Bytes_append, crc7Bytes_zeros]
    rfl
  · rw [trailer, crc7Bytes_zeros]
    rfl

/-! #### The polynomial remainder -/

/-- `G(x) = x^7 + x^3 + 1` over GF(2) (R73). -/
noncomputable def crcGenerator : Polynomial (ZMod 2) :=
  Polynomial.X ^ 7 + Polynomial.X ^ 3 + 1

/-- A CRC read as a polynomial, bit `k` the coefficient of `x^k` (R73). -/
noncomputable def crcPolynomial (c : Crc) : Polynomial (ZMod 2) :=
  ∑ k ∈ Finset.range 7, if c.getLsbD k then Polynomial.X ^ k else 0

/-- `M(x)`: a bit sequence read as a polynomial, its first bit the highest power (R73). -/
noncomputable def messagePolynomial (bits : List Bool) : Polynomial (ZMod 2) :=
  ∑ k ∈ Finset.range bits.length, if bits.getD k false then Polynomial.X ^ (bits.length - 1 - k) else 0

/-- A bit as a constant polynomial. -/
noncomputable def bitPolynomial (b : Bool) : Polynomial (ZMod 2) :=
  if b then 1 else 0

theorem ite_eq_bitPolynomial_mul (b : Bool) (p : Polynomial (ZMod 2)) :
    (if b then p else 0) = bitPolynomial b * p := by
  cases b <;> simp [bitPolynomial]

/-- Over GF(2) XOR is addition. -/
theorem bitPolynomial_xor (a b : Bool) : bitPolynomial (a ^^ b) = bitPolynomial a + bitPolynomial b := by
  cases a <;> cases b <;> simp [bitPolynomial, CharTwo.add_self_eq_zero]

theorem crcGenerator_monic : crcGenerator.Monic := by
  unfold crcGenerator
  monicity!

theorem crcGenerator_degree : crcGenerator.degree = 7 := by
  unfold crcGenerator
  compute_degree!

theorem crcPolynomial_degree_lt (c : Crc) : (crcPolynomial c).degree < 7 := by
  refine (Polynomial.degree_sum_le _ _).trans_lt ((Finset.sup_lt_iff (by decide)).2 fun k hk => ?_)
  split
  · rw [Polynomial.degree_X_pow]
    exact_mod_cast Finset.mem_range.1 hk
  · exact WithBot.bot_lt_coe 7

/-- One step multiplies the register by `x`, adds the data bit at `x^7`, and takes off `G` when the two make an `x^7`. -/
theorem crcPolynomial_crc7Step (c : Crc) (b : Bool) :
    crcPolynomial (crc7Step c b) =
      Polynomial.X * crcPolynomial c + bitPolynomial b * Polynomial.X ^ 7 + bitPolynomial (c.getLsbD 6 ^^ b) * crcGenerator := by
  obtain ⟨h0, h1, h2, h3, h4, h5, h6⟩ := crcStepIsTheXorNetwork c b
  simp only [crcPolynomial, crcGenerator, Finset.sum_range_succ, Finset.sum_range_zero, h0, h1, h2, h3, h4, h5, h6,
    ite_eq_bitPolynomial_mul, bitPolynomial_xor]
  linear_combination (-(bitPolynomial (c.getLsbD 6) + bitPolynomial b) * Polynomial.X ^ 7) *
    (CharTwo.two_eq_zero : (2 : Polynomial (ZMod 2)) = 0)

/-- One more bit multiplies `M` by `x` and adds the bit. -/
theorem messagePolynomial_snoc (bits : List Bool) (b : Bool) :
    messagePolynomial (bits ++ [b]) = Polynomial.X * messagePolynomial bits + bitPolynomial b := by
  have hfront : ∀ k ∈ Finset.range bits.length,
      (if (bits ++ [b]).getD k false then (Polynomial.X : Polynomial (ZMod 2)) ^ (bits.length - k) else 0) =
        Polynomial.X * if bits.getD k false then Polynomial.X ^ (bits.length - 1 - k) else 0 := fun k hk => by
    have hlt := Finset.mem_range.1 hk
    rw [List.getD_append _ _ _ _ hlt, mul_ite, mul_zero, ← pow_succ',
      show bits.length - 1 - k + 1 = bits.length - k by omega]
  simp only [messagePolynomial, List.length_append, List.length_singleton, Nat.add_sub_cancel, Finset.sum_range_succ]
  rw [Finset.sum_congr rfl hfront, Finset.mul_sum]
  simp [bitPolynomial]

/-- From the start value, the register and `M(x)·x^7` differ by a multiple of `G`. -/
theorem crcGenerator_dvd (bits : List Bool) :
    crcGenerator ∣ crcPolynomial (crc7Bits 0x00#7 bits) - messagePolynomial bits * Polynomial.X ^ 7 := by
  induction bits using List.reverseRecOn with
  | nil => simp [crcPolynomial, messagePolynomial]
  | append_singleton bits b ih =>
    obtain ⟨q, hq⟩ := ih
    refine ⟨Polynomial.X * q + bitPolynomial ((crc7Bits 0x00#7 bits).getLsbD 6 ^^ b), ?_⟩
    rw [crc7Bits_append, crc7Bits_cons, crc7Bits_nil, crcPolynomial_crc7Step, messagePolynomial_snoc]
    linear_combination Polynomial.X * hq

/-- The CRC of a bit sequence is the remainder of `M(x)·x^7` by `G` (R73). -/
theorem crcPolynomial_crc7Bits (bits : List Bool) :
    crcPolynomial (crc7Bits 0x00#7 bits) = (messagePolynomial bits * Polynomial.X ^ 7) %ₘ crcGenerator := by
  have hsmall : (crcPolynomial (crc7Bits 0x00#7 bits)).degree < crcGenerator.degree :=
    crcGenerator_degree ▸ crcPolynomial_degree_lt _
  rw [← Polynomial.modByMonic_eq_of_dvd_sub crcGenerator_monic (crcGenerator_dvd bits),
    (Polynomial.modByMonic_eq_self_iff crcGenerator_monic).2 hsmall]

/-- Settles O10: the byte fold is the bit fold, and the bit fold is the remainder. -/
theorem crcIsThePolynomialRemainder : Obligations.CrcIsThePolynomialRemainder := by
  refine ⟨rfl, fun bytes d => crc7Bytes_append bytes [d], fun bytes => ?_⟩
  have hbits : crc7Bytes bytes = crc7Bits 0x00#7 (bytes.flatMap bitsOfByte) := foldl_crc7Byte _ _
  rw [hbits]
  exact crcPolynomial_crc7Bits (bytes.flatMap bitsOfByte)

/-! #### The operations -/

/-- The state a CRC operation without data leaves: the new register and the answer OK (R75, R76, R77). -/
abbrev crcAnswered (c : Crc) (s : State) : State :=
  respond codeOk .nothing { s with crc := c }

theorem exec_crcBit (b : Bool) (s : State) : exec (.crcBit b) s = .next (crcAnswered (crc7Step s.crc b) s) := rfl

theorem exec_crcByte (d : Byte) (s : State) : exec (.crcByte d) s = .next (crcAnswered (crc7Byte s.crc d) s) := rfl

/-- Operations that each advance the register advance it as the fold does; each overwrites the answer before it. -/
theorem execAll_crcFold {α : Type} {op : α → Instr} {f : Crc → α → Crc}
    (hop : ∀ x s, exec (op x) s = .next (crcAnswered (f s.crc x) s)) (xs : List α) (c : Crc) (s : State) :
    execAll (xs.map op) (crcAnswered c s) = .next (crcAnswered (xs.foldl f c) s) := by
  induction xs generalizing c with
  | nil => rfl
  | cons x xs ih =>
    rw [List.map_cons, execAll_cons (hop x (crcAnswered c s))]
    exact ih (f c x)

/-- Settles O15, from R75. -/
theorem crcClrResult : Obligations.CrcClrResult :=
  ⟨rfl, fun _ => rfl⟩

/-- Settles O16, from R76. -/
theorem crcBitResult : Obligations.CrcBitResult :=
  ⟨fun _ => rfl, exec_crcBit⟩

/-- Settles O17: after the first bit, the seven others run as the fold over them does. -/
theorem crcByteResult : Obligations.CrcByteResult := by
  refine ⟨fun _ => rfl, fun d s => ⟨exec_crcByte d s, ?_⟩⟩
  rw [execAll_cons (exec_crcBit (d.getLsbD 7) s)]
  exact (execAll_crcFold exec_crcBit [d.getLsbD 6, d.getLsbD 5, d.getLsbD 4, d.getLsbD 3, d.getLsbD 2, d.getLsbD 1,
    d.getLsbD 0] (crc7Step s.crc (d.getLsbD 7)) s).symm

/-- Settles O18: `(crc << 1) | 1` is the CRC with the stop bit behind it. -/
theorem crcTrlResult : Obligations.CrcTrlResult := by
  refine ⟨rfl, fun s => ?_⟩
  rw [← trailerOf_eq_append]
  rfl

/-- Settles O19: the code, the count and the bytes as the decoder reads them. -/
theorem crcTrailerResult : Obligations.CrcTrailerResult := by
  refine ⟨fun bytes hlen => ?_, fun _ _ => rfl⟩
  have hcount : bytes.length < 65536 := Nat.lt_succ_of_le hlen
  have hwf : (Instr.crcTrailer bytes).wellFormed = true := decide_eq_true hlen
  refine ⟨_, rfl, (encodedWord _ hwf).1, count_encode hcount, fun j hj => ?_⟩
  rw [List.getElem?_eq_getElem hj]
  exact congrArg some (trailerByte_encode hcount hj).symm

/-- Settles O20: CRC.CLR leaves the start value, the bytes fold from it, and CRC.TRL answers the trailer of the fold. -/
theorem crcTrailerEqualsItsExpansion : Obligations.CrcTrailerEqualsItsExpansion := by
  intro bytes s
  have hclr : exec .crcClr s = .next (crcAnswered Config.crcInit s) := rfl
  have hbytes := execAll_crcFold exec_crcByte bytes Config.crcInit s
  rw [trailerExpansion, List.cons_append, execAll_cons hclr, execAll_append _ _ _ hbytes]
  rfl

end Sys2Proof.Machine

/-! ### The obligations of 41_packer.md -/

namespace Sys2Proof.Machine

/-! #### The operations -/

/-- With no fault pending, a push that is not accepted raises InvalidFieldWidth (R93). -/
theorem execPkPush_rejected {w : BitVec 6} {v : BitVec 40} {s : State} (he : s.err = 0#2) (hp : ¬PushAccepted w v s) :
    exec (.pkPush w v) s = .next (raise 1#2 s) := by
  obtain ⟨t, ht⟩ := exec_completes (.pkPush w v) s
  rcases execPkPush_cases ht with ⟨hne, -⟩ | ⟨-, -, rfl⟩ | ⟨-, hacc, -⟩
  · exact absurd he hne
  · exact ht
  · exact absurd hacc hp

/-- With a fault pending, a push answers its code (R124). -/
theorem execPkPush_pending {w : BitVec 6} {v : BitVec 40} {s : State} (he : s.err ≠ 0#2) :
    exec (.pkPush w v) s = .next (answerPending s) :=
  congrArg Host.Outcome.next (if_pos he)

/-- With no fault pending, a full packer is sealed (R95). -/
theorem execPkSeal_full {s : State} (he : s.err = 0#2) (hf : s.fill.toNat = 120) : exec .pkSeal s = .next (sealAcc s) := by
  simp [exec, execPkSeal, he, hf]

/-- With no fault pending, sealing a packer that is not full raises InvalidFieldWidth (R95). -/
theorem execPkSeal_short {s : State} (he : s.err = 0#2) (hf : s.fill.toNat ≠ 120) :
    exec .pkSeal s = .next (raise 1#2 s) := by
  simp [exec, execPkSeal, he, hf]

/-- With a fault pending, a seal answers its code (R124). -/
theorem execPkSeal_pending {s : State} (he : s.err ≠ 0#2) : exec .pkSeal s = .next (answerPending s) :=
  congrArg Host.Outcome.next (if_pos he)

theorem fill_eq_120_iff {s : State} : s.fill = 120#7 ↔ s.fill.toNat = 120 :=
  BitVec.toNat_inj.symm

/-- `fill + w` does not wrap (R93, R97). -/
theorem toNat_fill_pushed {w : BitVec 6} {v : BitVec 40} {s : State} (hp : PushAccepted w v s) :
    (pushed w v s).fill.toNat = s.fill.toNat + w.toNat := by
  obtain ⟨-, -, -, hroom⟩ := hp
  rw [respond_fill, BitVec.toNat_ofNat, Nat.mod_eq_of_lt (by omega)]

/-- Settles O21, from R92. -/
theorem pkClrResult : Obligations.PkClrResult :=
  ⟨rfl, fun _ => rfl⟩

/-- Settles O22: a push is accepted, rejected or answered with the pending code. -/
theorem pkPushResult : Obligations.PkPushResult := by
  refine ⟨fun _ _ => rfl, fun w v s he h1 h40 hv hroom => execPkPush_accepted he ⟨h1, h40, hv, hroom⟩,
    fun w v s he hbad => execPkPush_rejected he ?_, fun w v s he => execPkPush_pending he⟩
  rintro ⟨h1, h40, hv, hroom⟩
  omega

/-- Settles O23: `acc` and `v` stand side by side, so the new `acc` is below `2^fill · 2^w`. -/
theorem pkPushLosesNoBit : Obligations.PkPushLosesNoBit := by
  intro w v s he h1 h40 hv hroom hacc
  have hp : PushAccepted w v s := ⟨h1, h40, hv, hroom⟩
  have hsum : (pushed w v s).acc.toNat = s.acc.toNat * 2 ^ w.toNat + v.toNat := pushedAcc_toNat hv hacc hroom
  refine ⟨pushed w v s, execPkPush_accepted he hp, hsum, toNat_fill_pushed hp, ?_⟩
  rw [hsum, toNat_fill_pushed hp, pow_add]
  calc s.acc.toNat * 2 ^ w.toNat + v.toNat < (s.acc.toNat + 1) * 2 ^ w.toNat := by rw [Nat.add_mul]; omega
    _ ≤ 2 ^ s.fill.toNat * 2 ^ w.toNat := Nat.mul_le_mul_right _ hacc

/-- Settles O24: a seal that answered OK has left `acc`, `fill` and `err` as it needs them again. -/
theorem pkSealResult : Obligations.PkSealResult := by
  refine ⟨rfl, fun s he hf => execPkSeal_full he (fill_eq_120_iff.1 hf),
    fun s he hf => execPkSeal_short he (mt fill_eq_120_iff.2 hf), fun s he => execPkSeal_pending he, fun s t h hok => ?_⟩
  rcases execPkSeal_cases h with ⟨he, rfl⟩ | ⟨-, -, rfl⟩ | ⟨he, hf, rfl⟩
  · exact absurd ((answeredOk_iff rfl).1 hok) he
  · exact absurd ((answeredOk_iff rfl).1 hok) (by decide)
  · exact execPkSeal_full (s := sealAcc s) he hf

/-! #### Sequences of pushes -/

/-- The barrel shift and OR on an accumulator of 120 bits is `push_fn` cut to 120 bits (R90). -/
theorem pushedAcc_ofNat (a : Nat) (w : BitVec 6) (v : BitVec 40) :
    pushedAcc (BitVec.ofNat 120 a) w v = BitVec.ofNat 120 ((a <<< w.toNat) ||| v.toNat) := by
  apply BitVec.eq_of_toNat_eq
  rw [pushedAcc, BitVec.toNat_or, BitVec.toNat_shiftLeft, BitVec.toNat_ofNat, BitVec.toNat_ofNat, BitVec.toNat_setWidth,
    Nat.or_mod_two_pow, Nat.shiftLeft_eq, Nat.shiftLeft_eq, Nat.mod_mul_mod]

/-- The state PK.CLR and accepted pushes of `fields` leave: `acc` and `fill` are `pack` of the fields, and everything else is
as PK.CLR leaves it. -/
def packedState (fields : List CsdField) (s : State) : State :=
  respond codeOk .nothing
    { clearPacker s with
      acc := BitVec.ofNat 120 (pack (asPairs fields)).1, fill := BitVec.ofNat 7 (pack (asPairs fields)).2 }

theorem asPairs_snoc (fields : List CsdField) (f : CsdField) :
    asPairs (fields ++ [f]) = asPairs fields ++ [(f.len.toNat, f.val.toNat)] :=
  List.map_append

theorem pack_asPairs_snd (fields : List CsdField) : (pack (asPairs fields)).2 = (fields.map fun f => f.len.toNat).sum := by
  rw [pack_snd, totalWidth_asPairs, claimedWidths]

theorem toNat_fill_packedState {fields : List CsdField} (h : (fields.map fun f => f.len.toNat).sum ≤ 120) (s : State) :
    (packedState fields s).fill.toNat = (pack (asPairs fields)).2 := by
  rw [packedState, respond_fill, BitVec.toNat_ofNat, pack_asPairs_snd, Nat.mod_eq_of_lt (by omega)]

/-- Values that fit pack to a number that fits, so nothing is cut off `acc` (R96 P3). -/
theorem toNat_acc_packedState {fields : List CsdField} (hf : ∀ f ∈ fields, PushableField f)
    (h : (fields.map fun f => f.len.toNat).sum ≤ 120) (s : State) :
    (packedState fields s).acc.toNat = (pack (asPairs fields)).1 := by
  have hfit : AllFit (asPairs fields) := allFit_asPairs fun f hmem => by
    obtain ⟨-, -, hv⟩ := hf f hmem
    exact hv
  have hlt : (pack (asPairs fields)).1 < 2 ^ 120 := by
    refine (pack_lt _ hfit).trans_le (Nat.pow_le_pow_right (by decide) ?_)
    rwa [totalWidth_asPairs]
  rw [packedState, respond_acc, BitVec.toNat_ofNat, Nat.mod_eq_of_lt hlt]

/-- One more push with room for it. -/
theorem execPkPush_packedState {fields : List CsdField} {f : CsdField} (hf : PushableField f)
    (h : (fields.map fun f => f.len.toNat).sum + f.len.toNat ≤ 120) (s : State) :
    exec (.pkPush f.len f.val) (packedState fields s) = .next (packedState (fields ++ [f]) s) := by
  obtain ⟨h1, h40, hv⟩ := hf
  have hfill : (packedState fields s).fill.toNat = (pack (asPairs fields)).2 := toNat_fill_packedState (by omega) s
  have hp : PushAccepted f.len f.val (packedState fields s) := ⟨h1, h40, hv, by rwa [hfill, pack_asPairs_snd]⟩
  have hacc : pushedAcc (packedState fields s).acc f.len f.val = (packedState (fields ++ [f]) s).acc := by
    simp only [packedState, respond_acc, asPairs_snoc, pack_snoc, pushedAcc_ofNat, pushFn]
  rw [execPkPush_accepted rfl hp, pushed, hacc, hfill]
  simp only [packedState, asPairs_snoc, pack_snoc, pushFn]
  rfl

/-- PK.CLR and accepted pushes pack the fields, from every state (R96 P3). -/
theorem execAll_pkClr_pushes {fields : List CsdField} (hf : ∀ f ∈ fields, PushableField f)
    (h : (fields.map fun f => f.len.toNat).sum ≤ 120) (s : State) :
    execAll (.pkClr :: pushes fields) s = .next (packedState fields s) := by
  induction fields using List.reverseRecOn with
  | nil => rfl
  | append_singleton fields f ih =>
    simp only [List.map_append, List.map_cons, List.map_nil, List.sum_append, List.sum_singleton] at h
    have hfront : execAll (.pkClr :: pushes fields) s = .next (packedState fields s) :=
      ih (fun g hg => hf g (List.mem_append_left _ hg)) (by omega)
    have hlast : exec (.pkPush f.len f.val) (packedState fields s) = .next (packedState (fields ++ [f]) s) :=
      execPkPush_packedState (hf f (by simp)) h s
    rw [pushes, List.map_append, ← List.cons_append, ← pushes, execAll_append _ _ _ hfront]
    exact execAll_cons hlast []

/-- Settles O25: the packed state, and its seal when it is full. -/
theorem pushSequenceIsPack : Obligations.PushSequenceIsPack := by
  intro fields s hf hsum
  have hfill := toNat_fill_packedState hsum s
  exact ⟨_, execAll_pkClr_pushes hf hsum s, toNat_acc_packedState hf hsum s, hfill, rfl, rfl, rfl, rfl,
    fun hfull => ⟨_, execPkSeal_full rfl (hfill.trans hfull), ⟨_, rfl⟩, rfl⟩⟩

/-! #### Merging fields -/

/-- Pushing two fields is pushing their concatenation. -/
theorem pushFn_pushFn (af : Nat × Nat) (w₁ v₁ w₂ v₂ : Nat) :
    pushFn (pushFn af (w₁, v₁)) (w₂, v₂) = pushFn af (w₁ + w₂, (v₁ <<< w₂) ||| v₂) := by
  simp only [pushFn, Nat.shiftLeft_or_distrib, Nat.shiftLeft_add, Nat.or_assoc, Nat.add_assoc]

/-- Settles O26: the two folds meet after the merged fields. -/
theorem mergingFieldsKeepsPack : Obligations.MergingFieldsKeepsPack := by
  intro xs ys w₁ v₁ w₂ v₂ _ _
  simp only [pack, List.foldl_append, List.foldl_cons, List.foldl_nil, pushFn_pushFn]

/-! #### The left-aligned design -/

/-- Writing a field below the filled bits of the left-aligned accumulator is pushing it and then aligning. -/
theorem aligned_or_field (a : Payload) {n : Nat} {w : BitVec 6} (v : BitVec 40) (h : n + w.toNat ≤ 120) :
    a <<< (120 - n) ||| v.setWidth 120 <<< (120 - n - w.toNat) = pushedAcc a w v <<< (120 - (n + w.toNat)) := by
  rw [pushedAcc, BitVec.shiftLeft_or_distrib, ← BitVec.shiftLeft_add, Nat.sub_sub,
    show w.toNat + (120 - (n + w.toNat)) = 120 - n by omega]

/-- The left-aligned design holds the packed fields at the top of its accumulator (R94). -/
theorem leftAlignedPack_eq {fields : List CsdField} (h : (fields.map fun f => f.len.toNat).sum ≤ 120) :
    leftAlignedPack fields = (BitVec.ofNat 120 (pack (asPairs fields)).1 <<< (120 - (pack (asPairs fields)).2),
      (pack (asPairs fields)).2) := by
  induction fields using List.reverseRecOn with
  | nil => rfl
  | append_singleton fields f ih =>
    simp only [List.map_append, List.map_cons, List.map_nil, List.sum_append, List.sum_singleton] at h
    have hroom : (pack (asPairs fields)).2 + f.len.toNat ≤ 120 := by rwa [pack_asPairs_snd]
    have hsnoc : leftAlignedPack (fields ++ [f]) = leftAlignedPush (leftAlignedPack fields) f := by simp [leftAlignedPack]
    rw [hsnoc, ih (by omega), leftAlignedPush, aligned_or_field _ _ hroom, pushedAcc_ofNat, asPairs_snoc, pack_snoc, pushFn]

/-- Settles O27: both designs hold `pack` of the fields, and a full one is shifted by nothing. -/
theorem leftAlignedDesignAgrees : Obligations.LeftAlignedDesignAgrees := by
  intro fields s hf hsum
  have haligned : (leftAlignedPack fields).1 =
      (packedState fields s).acc <<< (120 - (packedState fields s).fill.toNat) := by
    rw [leftAlignedPack_eq hsum, toNat_fill_packedState hsum]
    rfl
  refine ⟨_, execAll_pkClr_pushes hf hsum s, ?_, haligned, fun hfull => ?_⟩
  · rw [leftAlignedPack_eq hsum, toNat_fill_packedState hsum]
  · rw [haligned, hfull, Nat.sub_self, BitVec.shiftLeft_zero]

/-! #### The sealed register -/

@[simp] theorem length_payloadBytes (a : Payload) : (payloadBytes a).length = 15 := by
  simp [payloadBytes]

theorem getElem?_payloadBytes (a : Payload) {k : Nat} (hk : k < 15) :
    (payloadBytes a)[k]? = some (a.extractLsb' (112 - 8 * k) 8) := by
  simp [payloadBytes, hk]

/-- The first 15 bytes of a sealed register are cut from its payload (R46, R91). -/
theorem registerByte_sealPayload (a : Payload) {k : Nat} (hk : k < 15) :
    registerByte (sealPayload a) k = a.extractLsb' (112 - 8 * k) 8 := by
  rw [registerByte, sealPayload, extract_append_high _ _ _ _ (by omega), show 120 - 8 * k - 8 = 112 - 8 * k by omega]

/-- The last byte of a sealed register is its trailer (R46). -/
theorem registerByte_sealPayload_last (a : Payload) : registerByte (sealPayload a) 15 = trailer (payloadBytes a) :=
  (extract_append_low a _ 0 8 (by omega)).trans (extract_whole _)

theorem registerBytes_sealPayload (a : Payload) :
    registerBytes (sealPayload a) = payloadBytes a ++ [trailer (payloadBytes a)] := by
  rw [registerBytes, Config.regBytes, List.range_succ, List.map_append, List.map_singleton, registerByte_sealPayload_last,
    payloadBytes]
  exact congrArg (· ++ _) (List.map_congr_left fun k hk => registerByte_sealPayload a (List.mem_range.1 hk))

/-- The payload is read back from a sealed register (R96 P4). -/
theorem sealPayload_injective {a b : Payload} (h : sealPayload a = sealPayload b) : a = b := by
  rw [← extract_payload_sealPayload a, h, extract_payload_sealPayload]

/-- The CRC of a sealed register's bytes is what every sequence with its own trailer leaves (R79 L5, R96 P5). -/
theorem crc7Bytes_registerBytes_sealPayload (a : Payload) : crc7Bytes (registerBytes (sealPayload a)) = 0x09#7 := by
  obtain ⟨-, hself⟩ := trailerSelfChecks (payloadBytes a)
  rw [registerBytes_sealPayload, hself]

/-- Settles O28: the register as payload and trailer side by side, and as the payload's bytes and the trailer byte. -/
theorem sealedRegisterShape : Obligations.SealedRegisterShape :=
  ⟨fun a _ hk => getElem?_payloadBytes a hk,
    fun a => ⟨length_payloadBytes a, extract_payload_sealPayload a, extract_crc_sealPayload a, getLsbD_zero_sealPayload a,
      registerBytes_sealPayload a, length_registerBytes _, crc7Bytes_registerBytes_sealPayload a⟩,
    fun _ _ => sealPayload_injective⟩

end Sys2Proof.Machine

/-! ### The obligations of 42_register_encode.md -/

namespace Sys2Proof.Machine

/-! #### ENC.CID and ENC.CSD by the outcome of their checks -/

/-- R106 as ranges. -/
theorem cidOperandsOk_iff {o : CidOperands} :
    cidOperandsOk o = true ↔ (0 ≤ o.mid ∧ o.mid ≤ 255) ∧ (0 ≤ o.oid ∧ o.oid ≤ 65535) ∧ o.pnm.length = 5 ∧
      (0 ≤ o.prv ∧ o.prv ≤ 255) ∧ (0 ≤ o.psn ∧ o.psn ≤ 2 ^ 32 - 1) ∧ (0 ≤ o.rsv ∧ o.rsv ≤ 7) ∧
      (0 ≤ o.mdt ∧ o.mdt ≤ 4095) := by
  simp only [cidOperandsOk, inRange, Bool.and_eq_true, beq_iff_eq, decide_eq_true_eq, and_assoc]

/-- ENC.CID on operands that pass (R105). -/
theorem execEncCid_ok {o : CidOperands} (h : cidOperandsOk o = true) (s : State) :
    exec (.encCid o) s = .next (encodePayload (cidPayload o) s) :=
  congrArg Host.Outcome.next (if_pos h)

/-- ENC.CID on operands that do not pass (R105). -/
theorem execEncCid_fault {o : CidOperands} (h : ¬cidOperandsOk o = true) (s : State) :
    exec (.encCid o) s = .next (raise 1#2 s) :=
  congrArg Host.Outcome.next (if_neg h)

/-- ENC.CSD on operands that pass (R108). -/
theorem execEncCsd_ok {fields : List CsdField} {s : State} (h : csdOperandsOk s.csdWidths fields = true) :
    exec (.encCsd fields) s = .next (encodePayload (csdPayload fields) s) :=
  congrArg Host.Outcome.next (if_pos h)

/-- ENC.CSD on operands that do not pass (R109). -/
theorem execEncCsd_fault {fields : List CsdField} {s : State} (h : ¬csdOperandsOk s.csdWidths fields = true) :
    exec (.encCsd fields) s = .next (raise 1#2 s) :=
  congrArg Host.Outcome.next (if_neg h)

/-! #### The seven fields of a CID -/

/-- An operand that fits `w` bits is written to them unchanged. -/
theorem toNat_ofInt_of_lt {w : Nat} {x : Int} (h0 : 0 ≤ x) (hlt : x < 2 ^ w) : (BitVec.ofInt w x).toNat = x.toNat := by
  have hfits : fitsBits w x = true := by simp [fitsBits, h0, hlt]
  have := toNat_ofInt_of_fits hfits
  omega

/-- The fields of R47 as `pack` takes them, RSV as the 4-bit Reserved field. -/
def cidPairs (o : CidOperands) : List (Nat × Nat) :=
  [(8, o.mid.toNat), (16, o.oid.toNat), (40, (pnmBits o.pnm).toNat), (8, o.prv.toNat), (32, o.psn.toNat),
    (4, o.rsv.toNat), (12, o.mdt.toNat)]

/-- The operands of the seven PK.PUSH of R107. -/
def cidFields (o : CidOperands) : List CsdField :=
  [⟨8#6, BitVec.ofInt 40 o.mid⟩, ⟨16#6, BitVec.ofInt 40 o.oid⟩, ⟨40#6, pnmBits o.pnm⟩, ⟨8#6, BitVec.ofInt 40 o.prv⟩,
    ⟨32#6, BitVec.ofInt 40 o.psn⟩, ⟨4#6, BitVec.ofInt 40 o.rsv⟩, ⟨12#6, BitVec.ofInt 40 o.mdt⟩]

/-- R107 expands ENC.CID as R110 expands ENC.CSD, on the fields of a CID. -/
theorem cidExpansion_eq (o : CidOperands) : cidExpansion o = csdExpansion (cidFields o) := rfl

theorem asPairs_cidFields {o : CidOperands} (h : cidOperandsOk o = true) : asPairs (cidFields o) = cidPairs o := by
  obtain ⟨hmid, hoid, -, hprv, hpsn, hrsv, hmdt⟩ := cidOperandsOk_iff.1 h
  have h40 : ∀ x : Int, 0 ≤ x ∧ x ≤ 2 ^ 32 - 1 → (BitVec.ofInt 40 x).toNat = x.toNat := fun x hx =>
    toNat_ofInt_of_lt hx.1 (by omega)
  simp only [asPairs, cidFields, cidPairs, List.map_cons, List.map_nil, h40 o.mid (by omega), h40 o.oid (by omega),
    h40 o.prv (by omega), h40 o.psn (by omega), h40 o.rsv (by omega), h40 o.mdt (by omega)]
  rfl

theorem allFit_cidPairs {o : CidOperands} (h : cidOperandsOk o = true) : AllFit (cidPairs o) := by
  obtain ⟨hmid, hoid, -, hprv, hpsn, hrsv, hmdt⟩ := cidOperandsOk_iff.1 h
  have hpnm := (pnmBits o.pnm).isLt
  simp only [AllFit, cidPairs, List.forall_mem_cons, List.not_mem_nil, false_imp_iff, implies_true, and_true]
  omega

/-- RSV is zero-extended to the Reserved field (R49). -/
theorem reservedField_eq_ofInt {x : Int} (h : 0 ≤ x ∧ x ≤ 7) : reservedField x = BitVec.ofInt 4 x := by
  apply BitVec.eq_of_toNat_eq
  rw [reservedField, BitVec.toNat_setWidth, toNat_ofInt_of_lt h.1 (by omega), toNat_ofInt_of_lt h.1 (by omega)]
  omega

/-- The payload is the concatenation of the fields (R105, R47). -/
theorem toNat_cidPayload {o : CidOperands} (h : cidOperandsOk o = true) :
    (cidPayload o).toNat = (pack (cidPairs o)).1 := by
  obtain ⟨hmid, hoid, -, hprv, hpsn, hrsv, hmdt⟩ := cidOperandsOk_iff.1 h
  simp only [cidPayload, reservedField_eq_ofInt hrsv, BitVec.toNat_append]
  rw [toNat_ofInt_of_lt hmid.1 (by omega), toNat_ofInt_of_lt hoid.1 (by omega), toNat_ofInt_of_lt hprv.1 (by omega),
    toNat_ofInt_of_lt hpsn.1 (by omega), toNat_ofInt_of_lt hrsv.1 (by omega), toNat_ofInt_of_lt hmdt.1 (by omega)]
  simp [pack, pushFn, cidPairs]

/-! #### The pure functions -/

theorem ofNat_pack_cidPairs {o : CidOperands} (h : cidOperandsOk o = true) :
    BitVec.ofNat 120 (pack (cidPairs o)).1 = cidPayload o := by
  rw [← toNat_cidPayload h, BitVec.ofNat_toNat, BitVec.setWidth_eq]

theorem ofNat_pack_asPairs {widths : List Nat} {fields : List CsdField} (h : csdOperandsOk widths fields = true) :
    BitVec.ofNat 120 (pack (asPairs fields)).1 = csdPayload fields := by
  rw [← toNat_csdPayload h, BitVec.ofNat_toNat, BitVec.setWidth_eq]

theorem computeCid_eq {o : CidOperands} (h : cidOperandsOk o = true) :
    computeCid o = registerBytes (sealPayload (cidPayload o)) := by
  rw [← ofNat_pack_cidPairs h]
  rfl

theorem computeCsd_eq {widths : List Nat} {fields : List CsdField} (h : csdOperandsOk widths fields = true) :
    computeCsd fields = registerBytes (sealPayload (csdPayload fields)) := by
  rw [← ofNat_pack_asPairs h]
  rfl

/-- Settles O37: the six elements and the response are functions of the payload. -/
theorem encodersArePure : Obligations.EncodersArePure := by
  refine ⟨fun o s s' h => ?_, fun fields s s' hw h => ?_⟩
  · refine ⟨_, _, execEncCid_ok h s, execEncCid_ok h s', rfl, rfl, rfl, rfl, rfl, rfl, ?_, rfl⟩
    rw [computeCid_eq h, encodePayload_response]
  · refine ⟨_, _, execEncCsd_ok h, execEncCsd_ok (hw ▸ h), rfl, rfl, rfl, rfl, rfl, rfl, ?_, rfl⟩
    rw [computeCsd_eq h, encodePayload_response]

/-! #### The expansions -/

/-- Clearing, pushing fields that fill the payload and sealing is encoding what they pack to, from every state. -/
theorem execAll_csdExpansion {fields : List CsdField} (hf : ∀ f ∈ fields, PushableField f)
    (hsum : (fields.map fun f => f.len.toNat).sum = 120) (s : State) :
    execAll (csdExpansion fields) s = .next (encodePayload (BitVec.ofNat 120 (pack (asPairs fields)).1) s) := by
  have htotal : (pack (asPairs fields)).2 = 120 := (pack_asPairs_snd fields).trans hsum
  have hfull : (packedState fields s).fill.toNat = 120 := (toNat_fill_packedState hsum.le s).trans htotal
  have hseal : exec .pkSeal (packedState fields s) = .next (sealAcc (packedState fields s)) := execPkSeal_full rfl hfull
  rw [csdExpansion, execAll_append _ _ _ (execAll_pkClr_pushes hf hsum.le s), execAll_cons hseal, packedState, htotal]
  rfl

theorem pushable_cidFields {o : CidOperands} (h : cidOperandsOk o = true) : ∀ f ∈ cidFields o, PushableField f := by
  have hwidths : ∀ f ∈ cidFields o, 1 ≤ f.len.toNat ∧ f.len.toNat ≤ 40 := by simp [cidFields]
  have hfit : AllFit (asPairs (cidFields o)) := asPairs_cidFields h ▸ allFit_cidPairs h
  intro f hf
  obtain ⟨h1, h40⟩ := hwidths f hf
  exact ⟨h1, h40, hfit _ (List.mem_map_of_mem hf)⟩

theorem pushable_of_csdOperandsOk {widths : List Nat} {fields : List CsdField} (h : csdOperandsOk widths fields = true) :
    ∀ f ∈ fields, PushableField f := by
  intro f hf
  obtain ⟨hwidths, rfl, hfit, -⟩ := csdOperandsOk_iff.1 h
  have hmem : f.len.toNat ∈ claimedWidths fields := List.mem_map_of_mem hf
  simp only [Config.csdWidthsOk, Bool.and_eq_true, List.all_eq_true, decide_eq_true_eq] at hwidths
  obtain ⟨⟨-, hrange⟩, -⟩ := hwidths
  obtain ⟨h1, h40⟩ := hrange _ hmem
  exact ⟨h1, h40, hfit f hf⟩

/-- Settles O32: the seven pushes pack the payload of ENC.CID. -/
theorem encCidEqualsItsExpansion : Obligations.EncCidEqualsItsExpansion := by
  intro o s h
  rw [cidExpansion_eq, execAll_csdExpansion (pushable_cidFields h) rfl, asPairs_cidFields h, ofNat_pack_cidPairs h,
    execEncCid_ok h]

/-- Settles O36: the 28 pushes pack the payload of ENC.CSD. -/
theorem encCsdEqualsItsExpansion : Obligations.EncCsdEqualsItsExpansion := by
  intro fields s h
  obtain ⟨-, -, -, hsum⟩ := csdOperandsOk_iff.1 h
  rw [execAll_csdExpansion (pushable_of_csdOperandsOk h) hsum, ofNat_pack_asPairs h, execEncCsd_ok h]

/-! #### The results -/

/-- Settles O30, by the two outcomes of the check. -/
theorem encCidResult : Obligations.EncCidResult := by
  refine ⟨fun _ => rfl, fun o s hmid hoid hpnm hprv hpsn hrsv hmdt => ?_, fun o s hbad => ?_⟩
  · rw [execEncCid_ok (cidOperandsOk_iff.2 ⟨hmid, hoid, hpnm, hprv, hpsn, hrsv, hmdt⟩), cidPayload,
      reservedField_eq_ofInt hrsv]
    rfl
  · exact execEncCid_fault (mt cidOperandsOk_iff.1 hbad) s

/-- On lists of 28, the claimed widths are `CSD_WIDTHS` if they are so slot by slot. -/
theorem claimedWidths_eq_iff {widths : List Nat} {fields : List CsdField} (hw : widths.length = 28)
    (hlen : fields.length = 28) :
    claimedWidths fields = widths ↔ ∀ i < 28, (fields[i]?).map (fun f => f.len.toNat) = widths[i]? := by
  constructor
  · rintro rfl i -
    rw [claimedWidths, List.getElem?_map]
  · intro h
    refine List.ext_getElem? fun i => ?_
    rw [claimedWidths, List.getElem?_map]
    by_cases hi : i < 28
    · exact h i hi
    · rw [List.getElem?_eq_none (by omega), List.getElem?_eq_none (by omega), Option.map_none]

/-- The word of ENC.CSD has its 28 fields in its slots (R56). -/
theorem encode_encCsd {fields : List CsdField} (hlen : fields.length = 28) :
    ∃ x : BitVec 1292, encode (.encCsd fields) = ⟨1292, x⟩ ∧ x.extractLsb' 0 4 = 0x9#4 ∧
      ∀ i < 28, fields[i]? = some ⟨x.extractLsb' (4 + 46 * (27 - i) + 40) 6, x.extractLsb' (4 + 46 * (27 - i)) 40⟩ := by
  have hwf : (Instr.encCsd fields).wellFormed = true := by simp [Instr.wellFormed, hlen]
  obtain ⟨hop, -⟩ := encodedWord _ hwf
  refine ⟨(encode (.encCsd fields)).bits, rfl, hop, fun i hi => ?_⟩
  rw [List.getElem?_eq_getElem (by omega), ← csdSlot_encode hlen hi]
  rfl

/-- Settles O33: each failing check of R109 is a conjunct of `csd_operands_ok`. -/
theorem encCsdResult : Obligations.EncCsdResult := by
  refine ⟨fun fields hlen => encode_encCsd hlen, fun fields s hwidths hlen hslots hfit => ?_,
    fun fields s hlen hbad => execEncCsd_fault fun hok => ?_⟩
  · have hclaimed := (claimedWidths_eq_iff (length_of_csdWidthsOk hwidths) hlen).2 hslots
    have hsum : s.csdWidths.sum = 120 := by
      simp only [Config.csdWidthsOk, Bool.and_eq_true, beq_iff_eq] at hwidths
      exact hwidths.2
    have hok : csdOperandsOk s.csdWidths fields = true :=
      csdOperandsOk_iff.2 ⟨hwidths, hclaimed, hfit, hclaimed ▸ hsum⟩
    exact ⟨csdPayload fields, toNat_csdPayload hok, execEncCsd_ok hok⟩
  · obtain ⟨hwidths, hclaimed, hfit, hsum⟩ := csdOperandsOk_iff.1 hok
    rcases hbad with ⟨i, hi, hne⟩ | ⟨f, hf, hwide⟩ | hne
    · exact hne ((claimedWidths_eq_iff (length_of_csdWidthsOk hwidths) hlen).1 hclaimed i hi)
    · exact absurd (hfit f hf) (by omega)
    · exact hne hsum

/-! #### The bytes of a CID -/

/-- A field of an operand's bits, as arithmetic on the operand. -/
theorem extract_ofInt {n : Nat} {x : Int} (lo w : Nat) (h0 : 0 ≤ x) (h : lo + w ≤ n) :
    (BitVec.ofInt n x).extractLsb' lo w = BitVec.ofInt w (x / 2 ^ lo) := by
  obtain ⟨m, rfl⟩ := Int.eq_ofNat_of_zero_le h0
  rw [BitVec.ofInt_natCast, show (m : Int) / 2 ^ lo = ((m / 2 ^ lo : Nat) : Int) by norm_cast, BitVec.ofInt_natCast]
  refine BitVec.eq_of_getLsbD_eq fun i hi => ?_
  simp only [BitVec.getLsbD_extractLsb', BitVec.getLsbD_ofNat, Nat.testBit_div_two_pow, hi, show lo + i < n by omega,
    decide_true, Bool.true_and, Nat.add_comm]

/-- Reserved and the upper four bits of MDT share a byte (R113 T1). -/
theorem extract_reserved_mdt {n : Nat} (x : BitVec n) {rsv mdt : Int} (hrsv : 0 ≤ rsv ∧ rsv ≤ 7)
    (hmdt : 0 ≤ mdt ∧ mdt ≤ 4095) :
    (x ++ reservedField rsv ++ BitVec.ofInt 12 mdt).extractLsb' 8 8 = BitVec.ofInt 8 (rsv * 16 + mdt / 256) := by
  have hhigh : (x ++ reservedField rsv ++ BitVec.ofInt 12 mdt).extractLsb' (8 + 4) 4 = BitVec.ofInt 4 rsv := by
    rw [extract_append_high _ _ _ _ (by omega), extract_append_low _ _ _ _ (by omega), extract_whole,
      reservedField_eq_ofInt hrsv]
  have hlow : (x ++ reservedField rsv ++ BitVec.ofInt 12 mdt).extractLsb' 8 4 = BitVec.ofInt 4 (mdt / 256) := by
    rw [extract_append_low _ _ _ _ (by omega), extract_ofInt 8 4 hmdt.1 (by omega)]
    rfl
  have hnibble : (mdt / 256).toNat < 2 ^ 4 := by omega
  apply BitVec.eq_of_toNat_eq
  rw [← BitVec.extractLsb'_append_extractLsb'_eq_extractLsb' (len₁ := 4) (len₂ := 4) rfl, hhigh, hlow, BitVec.toNat_append,
    toNat_ofInt_of_lt hrsv.1 (by omega), toNat_ofInt_of_lt (by omega) (by omega), toNat_ofInt_of_lt (by omega) (by omega),
    Nat.shiftLeft_eq, Nat.mul_comm, ← Nat.two_pow_add_eq_or_of_lt hnibble]
  omega

/-- PNM is read back from its 40 bits (R59). -/
theorem map_extract_pnmBits {p : List Byte} (hp : p.length = 5) :
    (List.range 5).map (fun j => (pnmBits p).extractLsb' (32 - 8 * j) 8) = p := by
  refine List.ext_getElem (by simp [hp]) fun j hj _ => ?_
  rw [List.getElem_map, List.getElem_range, extract_pnmBits hp (by simpa using hj)]

/-- The 15 bytes before the trailer (R113 T1). -/
def cidFront (o : CidOperands) : List Byte :=
  [BitVec.ofInt 8 o.mid, BitVec.ofInt 8 (o.oid / 256), BitVec.ofInt 8 o.oid] ++ o.pnm ++
    [BitVec.ofInt 8 o.prv, BitVec.ofInt 8 (o.psn / 2 ^ 24), BitVec.ofInt 8 (o.psn / 2 ^ 16),
      BitVec.ofInt 8 (o.psn / 2 ^ 8), BitVec.ofInt 8 o.psn, BitVec.ofInt 8 (o.rsv * 16 + o.mdt / 256),
      BitVec.ofInt 8 o.mdt]

theorem payloadBytes_cidPayload {o : CidOperands} (h : cidOperandsOk o = true) :
    payloadBytes (cidPayload o) = cidFront o := by
  obtain ⟨hmid, hoid, hpnm, hprv, hpsn, hrsv, hmdt⟩ := cidOperandsOk_iff.1 h
  rw [cidFront, ← map_extract_pnmBits hpnm]
  simp (disch := omega) only [payloadBytes, Config.payloadBytes, List.range_succ, List.range_zero, List.nil_append,
    List.cons_append, List.map_cons, List.map_nil, Nat.reduceSub, Nat.reduceMul, cidPayload, extract_append_high,
    extract_append_low, extract_reserved_mdt _ hrsv hmdt, extract_ofInt, Int.reducePow, Int.ediv_one]

/-- Settles O31: each byte is cut from one field of the payload, but for the one that Reserved and MDT share. -/
theorem cidBytes : Obligations.CidBytes := by
  intro o s h
  refine ⟨_, execEncCid_ok h s, ?_, length_registerBytes _, crc7Bytes_registerBytes_sealPayload _⟩
  change registerBytes (sealPayload (cidPayload o)) = cidFront o ++ [trailer (cidFront o)]
  rw [registerBytes_sealPayload, payloadBytes_cidPayload h]

/-! #### Different operands, different bytes -/

theorem registerBytes_injective {r r' : Register} (h : registerBytes r = registerBytes r') : r = r' := by
  have hagree : AgreeOn r r' 0 128 := .slots_rev (w := 8) (k := 16) fun k hk => by
    have hbyte : registerByte r k = registerByte r' k :=
      Option.some.inj (by rw [← getElem?_registerBytes r hk, h, getElem?_registerBytes r' hk])
    rwa [registerByte, registerByte, show 120 - 8 * k = 0 + 8 * (16 - 1 - k) by omega] at hbyte
  rwa [AgreeOn, extract_whole, extract_whole] at hagree

/-- After ENC.CID or ENC.CSD on operands that pass, the bytes of `out` determine the payload. -/
theorem payload_eq_of_outBytes_eq {a b : Payload} {s s' : State}
    (h : outBytes (encodePayload a s) = outBytes (encodePayload b s')) : a = b :=
  sealPayload_injective (registerBytes_injective h)

theorem pnmBits_injective {p q : List Byte} (hp : p.length = 5) (hq : q.length = 5) (h : pnmBits p = pnmBits q) :
    p = q := by
  rw [← map_extract_pnmBits hp, h, map_extract_pnmBits hq]

theorem cidPairs_injective {o o' : CidOperands} (h : cidOperandsOk o = true) (h' : cidOperandsOk o' = true)
    (heq : cidPairs o = cidPairs o') : o = o' := by
  obtain ⟨mid, oid, pnm, prv, psn, rsv, mdt⟩ := o
  obtain ⟨mid', oid', pnm', prv', psn', rsv', mdt'⟩ := o'
  simp only [cidOperandsOk_iff] at h h'
  simp only [cidPairs, List.cons.injEq, Prod.mk.injEq, true_and, and_true] at heq
  have ⟨_, _, hpnm, _⟩ := h
  have ⟨_, _, hpnm', _⟩ := h'
  have ⟨_, _, epnm, _⟩ := heq
  obtain rfl : pnm = pnm' := pnmBits_injective hpnm hpnm' (BitVec.eq_of_toNat_eq epnm)
  simp only [CidOperands.mk.injEq, true_and]
  omega

theorem asPairs_injective {fs fs' : List CsdField} (h : asPairs fs = asPairs fs') : fs = fs' := by
  refine List.map_injective_iff.2 (fun f g hfg => ?_) h
  obtain ⟨hlen, hval⟩ := Prod.mk.inj hfg
  cases f
  cases g
  exact congrArg₂ CsdField.mk (BitVec.eq_of_toNat_eq hlen) (BitVec.eq_of_toNat_eq hval)

/-- Settles O38: equal bytes have equal payloads, and fields of the same widths are read back from what they pack to. -/
theorem encodersAreInjective : Obligations.EncodersAreInjective := by
  refine ⟨fun o o' s s' t t' h h' ht ht' hout => ?_, fun fs fs' s s' t t' hw h h' ht ht' hout => ?_⟩
  · rw [execEncCid_ok h, Host.Outcome.next.injEq] at ht
    rw [execEncCid_ok h', Host.Outcome.next.injEq] at ht'
    subst ht ht'
    have hpack : (pack (cidPairs o)).1 = (pack (cidPairs o')).1 := by
      rw [← toNat_cidPayload h, ← toNat_cidPayload h', payload_eq_of_outBytes_eq hout]
    exact cidPairs_injective h h' (pack_injective _ _ rfl (allFit_cidPairs h) (allFit_cidPairs h') hpack)
  · rw [execEncCsd_ok h, Host.Outcome.next.injEq] at ht
    rw [execEncCsd_ok h', Host.Outcome.next.injEq] at ht'
    subst ht ht'
    obtain ⟨-, hclaimed, hfit, -⟩ := csdOperandsOk_iff.1 h
    obtain ⟨-, hclaimed', hfit', -⟩ := csdOperandsOk_iff.1 h'
    have hpack : (pack (asPairs fs)).1 = (pack (asPairs fs')).1 := by
      rw [← toNat_csdPayload h, ← toNat_csdPayload h', payload_eq_of_outBytes_eq hout]
    have hwidths : (asPairs fs).map Prod.fst = (asPairs fs').map Prod.fst := by
      simpa [asPairs, claimedWidths, Function.comp_def] using hclaimed.trans (hw.trans hclaimed'.symm)
    exact asPairs_injective (pack_injective _ _ hwidths (allFit_asPairs hfit) (allFit_asPairs hfit') hpack)

end Sys2Proof.Machine

/-! ### The obligations of 60_exceptions.md -/

namespace Sys2Proof.Machine

/-! #### The status an operation answers -/

/-- The six reserved operations (R60). -/
abbrev reservedOps : List Instr :=
  [.reserved7, .reservedB, .reservedC, .reservedD, .reservedE, .reservedF]

/-- A reserved code raises IllegalOperation, whatever the state (R122). -/
theorem exec_reserved {i : Instr} (hi : i ∈ reservedOps) (s : State) : exec i s = .next (raise 2#2 s) := by
  simp only [List.mem_cons, List.not_mem_nil, or_false] at hi
  rcases hi with rfl | rfl | rfl | rfl | rfl | rfl <;> rfl

/-- The status operation `i` answers in state `s`: OK, InvalidFieldWidth (R121), IllegalOperation (R122), or the pending
code (R124). `exec_ok_or_raises` ties it to `exec`. -/
def statusOf (i : Instr) (s : State) : Code :=
  match i with
  | .pkPush w v => if s.err ≠ 0#2 then s.err else if PushAccepted w v s then 0#2 else 1#2
  | .pkSeal => if s.err ≠ 0#2 then s.err else if s.fill.toNat = 120 then 0#2 else 1#2
  | .encCid o => if cidOperandsOk o then 0#2 else 1#2
  | .encCsd fields => if csdOperandsOk s.csdWidths fields then 0#2 else 1#2
  | .reserved7 | .reservedB | .reservedC | .reservedD | .reservedE | .reservedF => 2#2
  | _ => 0#2

@[simp] theorem statusOf_pkPush (w : BitVec 6) (v : BitVec 40) (s : State) :
    statusOf (.pkPush w v) s = if s.err ≠ 0#2 then s.err else if PushAccepted w v s then 0#2 else 1#2 := rfl

@[simp] theorem statusOf_pkSeal (s : State) :
    statusOf .pkSeal s = if s.err ≠ 0#2 then s.err else if s.fill.toNat = 120 then 0#2 else 1#2 := rfl

@[simp] theorem statusOf_encCid (o : CidOperands) (s : State) :
    statusOf (.encCid o) s = if cidOperandsOk o then 0#2 else 1#2 := rfl

@[simp] theorem statusOf_encCsd (fields : List CsdField) (s : State) :
    statusOf (.encCsd fields) s = if csdOperandsOk s.csdWidths fields then 0#2 else 1#2 := rfl

/-- Answering the pending code is raising it again (R123, R124). -/
theorem answerPending_eq_raise (s : State) : answerPending s = raise s.err s := rfl

/-- Every operation answers OK and its status is that, or raises its status. -/
theorem exec_ok_or_raises {i : Instr} {s t : State} (h : exec i s = .next t) :
    (statusOf i s = 0#2 ∧ AnsweredOk t) ∨ (statusOf i s ≠ 0#2 ∧ t = raise (statusOf i s) s) := by
  cases i with
  | crcClr | crcBit _ | crcByte _ | crcTrl | crcTrailer _ | pkClr => cases h; exact .inl ⟨rfl, _, rfl⟩
  | reserved7 | reservedB | reservedC | reservedD | reservedE | reservedF =>
    cases h
    exact .inr ⟨show (2#2 : Code) ≠ 0#2 by decide, rfl⟩
  | pkPush w v =>
    rcases execPkPush_cases h with ⟨he, rfl⟩ | ⟨he, hp, rfl⟩ | ⟨he, hp, rfl⟩
    · exact .inr (by simp [he, answerPending_eq_raise])
    · exact .inr (by simp [he, hp])
    · exact .inl ⟨by simp [he, hp], _, rfl⟩
  | pkSeal =>
    rcases execPkSeal_cases h with ⟨he, rfl⟩ | ⟨he, hf, rfl⟩ | ⟨he, hf, rfl⟩
    · exact .inr (by simp [he, answerPending_eq_raise])
    · exact .inr (by simp [he, hf])
    · exact .inl ⟨by simp [he, hf], _, rfl⟩
  | encCid o =>
    rcases execEncCid_cases h with ⟨ho, rfl⟩ | ⟨ho, rfl⟩
    · exact .inl ⟨by simp [ho], _, rfl⟩
    · exact .inr (by simp [ho])
  | encCsd fields =>
    rcases execEncCsd_cases h with ⟨ho, rfl⟩ | ⟨ho, rfl⟩
    · exact .inl ⟨by simp [ho], _, rfl⟩
    · exact .inr (by simp [ho])

/-- The response of an operation carries its status. -/
theorem statusOf_eq {i : Instr} {s t : State} {k : Code} {d : ResponseData} (h : exec i s = .next t)
    (hr : t.response = some ⟨k, d⟩) : statusOf i s = k := by
  rcases exec_ok_or_raises h with ⟨hst, hok⟩ | ⟨-, rfl⟩
  · rw [hst, (answeredOk_iff hr).1 hok]
  · simp only [raise_response, Option.some.injEq, Response.mk.injEq] at hr
    exact hr.1

/-- An operation that answers a fault has raised it (R123). -/
theorem eq_raise_of_fault {i : Instr} {s t : State} {k : Code} {d : ResponseData} (h : exec i s = .next t)
    (hr : t.response = some ⟨k, d⟩) (hk : k ≠ 0#2) : t = raise k s := by
  have hst := statusOf_eq h hr
  rcases exec_ok_or_raises h with ⟨h0, -⟩ | ⟨-, ht⟩
  · exact absurd (hst.symm.trans h0) hk
  · rwa [hst] at ht

/-- An operation answers InvalidFieldWidth, without data, exactly if that is its status. -/
theorem answers_invalidFieldWidth_iff {i : Instr} {s t : State} (h : exec i s = .next t) :
    t.response = some ⟨1#2, .nothing⟩ ↔ statusOf i s = 1#2 := by
  refine ⟨statusOf_eq h, fun hst => ?_⟩
  rcases exec_ok_or_raises h with ⟨h0, -⟩ | ⟨-, rfl⟩
  · exact absurd (hst.symm.trans h0) (by decide)
  · rw [raise_response, hst]

/-- Settles O40: the operation that answers a fault has raised it, and raising writes `err` alone. -/
theorem faultsArePrecise : Obligations.FaultsArePrecise := by
  intro i s t k d h hr hk
  obtain rfl := eq_raise_of_fault h hr hk
  simp only [raise_response, Option.some.injEq, Response.mk.injEq, true_and] at hr
  exact ⟨hr.symm, rfl⟩

/-! #### The causes of InvalidFieldWidth -/

/-- R93's checks, negated: causes (a) to (c). -/
theorem not_pushAccepted_iff {w : BitVec 6} {v : BitVec 40} {s : State} :
    ¬PushAccepted w v s ↔ w.toNat = 0 ∨ 40 < w.toNat ∨ 2 ^ w.toNat ≤ v.toNat ∨ 120 < s.fill.toNat + w.toNat := by
  rw [PushAccepted]
  omega

/-- R106's checks, negated: an operand out of range or PNM not of five bytes. -/
theorem not_cidOperandsOk_iff {o : CidOperands} :
    ¬cidOperandsOk o = true ↔
      o.mid < 0 ∨ 255 < o.mid ∨ o.oid < 0 ∨ 65535 < o.oid ∨ o.pnm.length ≠ 5 ∨ o.prv < 0 ∨ 255 < o.prv ∨
        o.psn < 0 ∨ 2 ^ 32 - 1 < o.psn ∨ o.rsv < 0 ∨ 7 < o.rsv ∨ o.mdt < 0 ∨ 4095 < o.mdt := by
  rw [cidOperandsOk_iff]
  omega

/-- R109's checks, negated, where `CSD_WIDTHS` meets R6. -/
theorem not_csdOperandsOk_iff {widths : List Nat} {fields : List CsdField} (hw : Config.csdWidthsOk widths = true) :
    ¬csdOperandsOk widths fields = true ↔
      claimedWidths fields ≠ widths ∨ (∃ f ∈ fields, 2 ^ f.len.toNat ≤ f.val.toNat) ∨
        (claimedWidths fields).sum ≠ 120 := by
  rw [csdOperandsOk_iff]
  simp only [hw, true_and, not_and_or, not_forall, not_lt, exists_prop, ne_eq]

/-- Settles O41, operation by operation: the status is 1 where a check fails. -/
theorem invalidFieldWidthCauses : Obligations.InvalidFieldWidthCauses := by
  intro i s t he hw h
  rw [answers_invalidFieldWidth_iff h]
  cases i with
  | crcClr | crcBit _ | crcByte _ | crcTrl | crcTrailer _ | pkClr =>
    exact iff_of_false (show (0#2 : Code) ≠ 1#2 by decide) (by simp)
  | reserved7 | reservedB | reservedC | reservedD | reservedE | reservedF =>
    exact iff_of_false (show (2#2 : Code) ≠ 1#2 by decide) (by simp)
  | pkPush w v =>
    have hstatus : statusOf (.pkPush w v) s = 1#2 ↔ ¬PushAccepted w v s := by
      rw [statusOf_pkPush, if_neg (not_not_intro he)]
      simp
    rw [hstatus, not_pushAccepted_iff]
    simp
  | pkSeal => simp [he]
  | encCid o =>
    have hstatus : statusOf (.encCid o) s = 1#2 ↔ ¬cidOperandsOk o = true := by simp
    rw [hstatus, not_cidOperandsOk_iff]
    simp
  | encCsd fields =>
    have hstatus : statusOf (.encCsd fields) s = 1#2 ↔ ¬csdOperandsOk s.csdWidths fields = true := by simp
    rw [hstatus, not_csdOperandsOk_iff hw]
    simp [claimedWidths]

/-! #### While a fault is pending -/

/-- ENC.CID writes `err` by the outcome of its check (R105, R126). -/
theorem execEncCid_err {o : CidOperands} {s t : State} (h : exec (.encCid o) s = .next t) :
    t.err = if cidOperandsOk o then 0#2 else 1#2 := by
  rcases execEncCid_cases h with ⟨ho, rfl⟩ | ⟨ho, rfl⟩ <;> simp [ho]

/-- ENC.CSD writes `err` by the outcome of its check (R108, R126). -/
theorem execEncCsd_err {fields : List CsdField} {s t : State} (h : exec (.encCsd fields) s = .next t) :
    t.err = if csdOperandsOk s.csdWidths fields then 0#2 else 1#2 := by
  rcases execEncCsd_cases h with ⟨ho, rfl⟩ | ⟨ho, rfl⟩ <;> simp [ho]

/-- Settles O42, family by family. -/
theorem pendingFaultBehaviour : Obligations.PendingFaultBehaviour := by
  intro s he
  refine ⟨fun w v => execPkPush_pending he, execPkSeal_pending he, fun i hi => ?_, ⟨_, rfl, rfl⟩,
    fun o => ⟨_, rfl, execEncCid_err rfl⟩, fun fields => ⟨_, rfl, execEncCsd_err rfl⟩,
    fun i hi => ⟨_, exec_reserved hi s, rfl⟩⟩
  obtain ⟨t, ht⟩ := exec_completes i s
  obtain ⟨c, d, rfl⟩ := execCrc_cases hi ht
  exact ⟨_, ht, ⟨d, rfl⟩, rfl⟩

/-- The operations that end a pending fault: PK.CLR, and ENC.CID or ENC.CSD whose operands pass (R126). -/
abbrev EndsFault (i : Instr) (widths : List Nat) : Prop :=
  i = .pkClr ∨ (∃ o, i = .encCid o ∧ cidOperandsOk o = true) ∨
    ∃ fields, i = .encCsd fields ∧ csdOperandsOk widths fields = true

theorem exec_err_eq_zero_iff {i : Instr} {s t : State} (he : s.err ≠ 0#2) (h : exec i s = .next t) :
    t.err = 0#2 ↔ EndsFault i s.csdWidths := by
  cases i with
  | crcClr | crcBit _ | crcByte _ | crcTrl | crcTrailer _ =>
    cases h
    simp [he]
  | reserved7 | reservedB | reservedC | reservedD | reservedE | reservedF =>
    cases h
    simp
  | pkClr =>
    cases h
    simp [EndsFault]
  | pkPush w v =>
    rw [execPkPush_pending he] at h
    cases h
    simp [he]
  | pkSeal =>
    rw [execPkSeal_pending he] at h
    cases h
    simp [he]
  | encCid o =>
    rw [execEncCid_err h]
    simp [EndsFault]
  | encCsd fields =>
    rw [execEncCsd_err h]
    simp [EndsFault]

/-- Only ENC.CID, ENC.CSD or a reserved code answers a fault other than the pending one (R124, R126). -/
theorem encoder_or_reserved_of_overwrites {i : Instr} {s : State} (he : s.err ≠ 0#2) (h0 : statusOf i s ≠ 0#2)
    (hne : statusOf i s ≠ s.err) : (∃ o, i = .encCid o) ∨ (∃ fields, i = .encCsd fields) ∨ i ∈ reservedOps := by
  cases i with
  | crcClr | crcBit _ | crcByte _ | crcTrl | crcTrailer _ | pkClr => exact absurd rfl h0
  | pkPush _ _ | pkSeal => exact absurd (if_pos he) hne
  | encCid o => exact .inl ⟨o, rfl⟩
  | encCsd fields => exact .inr (.inl ⟨fields, rfl⟩)
  | reserved7 | reservedB | reservedC | reservedD | reservedE | reservedF => simp

/-- Settles O43: an idle step leaves `err`, a reset clears it, and an operation does as R124 and R126 have it. -/
theorem errClearsInThreeWays : Obligations.ErrClearsInThreeWays := by
  intro s t he h
  constructor
  · rcases step_cases h with ⟨hp, rfl⟩ | ⟨rest, hp, rfl⟩ | ⟨c, rest, i, hp, hd, hexec⟩
    · simp [hp, he]
    · simp [hp]
    · have hends := exec_err_eq_zero_iff (s := { s with pending := rest }) he hexec
      rw [hends]
      simp [hp, hd]
  · intro c rest i k d hp hd hr hk
    rw [step_issue hp hd] at h
    refine ⟨by rw [eq_raise_of_fault h hr hk, raise_err], fun hne => ?_⟩
    obtain rfl := statusOf_eq h hr
    exact encoder_or_reserved_of_overwrites (s := { s with pending := rest }) he hk hne

/-! #### Where a step stops -/

theorem step_reset {s : State} {rest : List HostEvent} (hp : s.pending = .reset :: rest) :
    step s = .next (applyReset { s with pending := rest }) := by
  simp [step, takeEvent, hp]

theorem step_rejected {s : State} {c : CmdWord} {rest : List HostEvent} {why : Reject}
    (hp : s.pending = .issue c :: rest) (hd : decode c = .rejected why) :
    step s = .refused (.notACommandWord why) := by
  simp [step, takeEvent, hp, hd]

/-- A rejected string is the word of no well-formed operation: every such word decodes (R50). -/
theorem wellFormed_eq_false_of_rejected {c : CmdWord} {why : Reject} {i : Instr} (hd : decode c = .rejected why)
    (hi : encode i = c) : i.wellFormed = false := by
  rw [Bool.eq_false_iff]
  intro hwf
  rw [← hi, decode_encode hwf] at hd
  cases hd

/-- Settles O58, by the oldest event and what the decoder answers. -/
theorem stepStopsOnlyOnNonWords : Obligations.StepStopsOnlyOnNonWords := by
  intro s
  rcases hp : s.pending with _ | ⟨_ | _, rest⟩
  case nil => exact .inl ⟨s, step_idle hp⟩
  case cons.reset => exact .inl ⟨_, step_reset hp⟩
  case cons.issue c =>
    rcases hd : decode c with i | why
    · rw [step_issue hp hd]
      exact .inl (exec_completes i _)
    · exact .inr ⟨c, rest, why, rfl, fun i hi => wellFormed_eq_false_of_rejected hd hi, step_rejected hp hd⟩

/-! #### The reserved codes -/

/-- Settles O39: each of the six raises, and each word is the encoding of its operation. -/
theorem reservedCodesRaise : Obligations.ReservedCodesRaise :=
  ⟨fun s _ hi => exec_reserved hi s, decode_encode (i := .reserved7) rfl, decode_encode (i := .reservedB) rfl,
    decode_encode (i := .reservedC) rfl, decode_encode (i := .reservedD) rfl, decode_encode (i := .reservedE) rfl,
    decode_encode (i := .reservedF) rfl⟩

end Sys2Proof.Machine

/-! ### The obligations of 70_reset_and_hazards.md -/

namespace Sys2Proof.Machine

/-! #### The shut packer -/

/-- What every operation of a run keeps, the whole run keeps. -/
theorem execAll_keeps {P : State → Prop} {is : List Instr}
    (hstep : ∀ i ∈ is, ∀ u v, P u → exec i u = .next v → P v) {s t : State} (hs : P s) (h : execAll is s = .next t) :
    P t := by
  induction is generalizing s with
  | nil =>
    cases h
    exact hs
  | cons i is ih =>
    obtain ⟨u, hu⟩ := exec_completes i s
    rw [execAll_cons hu] at h
    exact ih (fun j hj => hstep j (List.mem_cons_of_mem i hj)) (hstep i List.mem_cons_self s u hs hu) h

/-- `t` has a fault pending and the packer of `s` (R149); the same `CSD_WIDTHS` decide which macros pass. -/
structure ShutAs (s t : State) : Prop where
  err : t.err ≠ 0#2
  acc : t.acc = s.acc
  fill : t.fill = s.fill
  out : t.out = s.out
  outValid : t.outValid = s.outValid
  csdWidths : t.csdWidths = s.csdWidths

/-- An operation that does not end the fault leaves `err ≠ 0`, and whatever writes the packer needs `err = 0` or makes it
so (R124, R126). -/
theorem exec_keeps_shutAs {i : Instr} {s u v : State} (hu : ShutAs s u) (hi : ¬EndsFault i s.csdWidths)
    (h : exec i u = .next v) : ShutAs s v := by
  rw [← hu.csdWidths] at hi
  have herr : v.err ≠ 0#2 := mt (exec_err_eq_zero_iff hu.err h).1 hi
  rcases exec_cases h with ⟨k, d, rfl⟩ | ⟨c, d, rfl⟩ | rfl | ⟨w, x, he, -, -⟩ | ⟨he, -, -⟩ | ⟨a, rfl⟩ | ⟨k, -, rfl⟩
  · exact { hu with err := herr }
  · exact { hu with err := herr }
  · exact absurd rfl herr
  · exact absurd he hu.err
  · exact absurd he hu.err
  · exact absurd rfl herr
  · exact { hu with err := herr }

/-- Settles O44: every operation of the run keeps the packer shut as it was at the start, so the run does. -/
theorem shutPackerNeverSeals : Obligations.ShutPackerNeverSeals := by
  intro is s he hops
  have hends : ∀ i ∈ is, ¬EndsFault i s.csdWidths := by
    intro i hi
    obtain ⟨hclr, hcid, hcsd⟩ := hops i hi
    rintro (rfl | ⟨o, rfl, ho⟩ | ⟨fields, rfl, hf⟩)
    · exact hclr rfl
    · simp [hcid o rfl] at ho
    · simp [hcsd fields rfl] at hf
  obtain ⟨t, ht⟩ := execAll_completes is s
  have hstart : ShutAs s s := ⟨he, rfl, rfl, rfl, rfl, rfl⟩
  obtain ⟨herr, hacc, hfill, hout, hvalid, -⟩ := execAll_keeps (fun i hi _ _ hu => exec_keeps_shutAs hu (hends i hi)) hstart ht
  exact ⟨t, ht, herr, hacc, hfill, hout, hvalid⟩

/-! #### CRC primitives in a packing sequence -/

/-- `s` with another CRC register and another last response: all that a CRC primitive can change. -/
def withCrcAnswer (c : Crc) (r : Option Response) (s : State) : State :=
  { s with crc := c, response := r }

theorem withCrcAnswer_self (s : State) : withCrcAnswer s.crc s.response s = s := rfl

/-- A CRC primitive is forgotten when the CRC register and the response are replaced. -/
theorem withCrcAnswer_of_primitive {i : Instr} {s t : State} (hi : isCrcPrimitive i = true) (h : exec i s = .next t)
    (c : Crc) (r : Option Response) : withCrcAnswer c r t = withCrcAnswer c r s := by
  obtain ⟨_, _, rfl⟩ := execCrc_cases (.inl hi) h
  rfl

/-- An operation that is no CRC primitive reads neither `crc` nor the last response: with others it does the same, but for
the `crc` it leaves. -/
theorem exec_withCrcAnswer {i : Instr} {s t : State} (hi : isCrcPrimitive i = false) (h : exec i s = .next t) (c : Crc)
    (r : Option Response) : ∃ c', exec i (withCrcAnswer c r s) = .next (withCrcAnswer c' t.response t) := by
  cases i with
  | crcClr | crcBit _ | crcByte _ | crcTrl => cases hi
  | pkClr | crcTrailer _ => cases h; exact ⟨_, rfl⟩
  | reserved7 | reservedB | reservedC | reservedD | reservedE | reservedF => cases h; exact ⟨_, rfl⟩
  | pkPush w v =>
    rcases execPkPush_cases h with ⟨he, rfl⟩ | ⟨he, hp, rfl⟩ | ⟨he, hp, rfl⟩
    · exact ⟨_, execPkPush_pending he⟩
    · exact ⟨_, execPkPush_rejected he hp⟩
    · exact ⟨_, execPkPush_accepted he hp⟩
  | pkSeal =>
    rcases execPkSeal_cases h with ⟨he, rfl⟩ | ⟨he, hf, rfl⟩ | ⟨he, hf, rfl⟩
    · exact ⟨_, execPkSeal_pending he⟩
    · exact ⟨_, execPkSeal_short he hf⟩
    · exact ⟨_, execPkSeal_full he hf⟩
  | encCid o =>
    rcases execEncCid_cases h with ⟨ho, rfl⟩ | ⟨ho, rfl⟩
    · exact ⟨_, execEncCid_ok ho _⟩
    · exact ⟨_, execEncCid_fault (ne_true_of_eq_false ho) _⟩
  | encCsd fields =>
    rcases execEncCsd_cases h with ⟨ho, rfl⟩ | ⟨ho, rfl⟩
    · exact ⟨_, execEncCsd_ok ho⟩
    · exact ⟨_, execEncCsd_fault (ne_true_of_eq_false ho)⟩

/-- A run without its CRC primitives ends as the whole run does, but for `crc` and the last response. -/
theorem execAll_filter_withCrcAnswer {is : List Instr} {s t : State} (h : execAll is s = .next t) (c : Crc)
    (r : Option Response) :
    ∃ c' r', execAll (is.filter fun i => !isCrcPrimitive i) (withCrcAnswer c r s) = .next (withCrcAnswer c' r' t) := by
  induction is generalizing s c r with
  | nil =>
    cases h
    exact ⟨c, r, rfl⟩
  | cons i is ih =>
    obtain ⟨u, hu⟩ := exec_completes i s
    rw [execAll_cons hu] at h
    cases hi : isCrcPrimitive i with
    | true =>
      rw [List.filter_cons_of_neg (by simp [hi]), ← withCrcAnswer_of_primitive hi hu]
      exact ih h c r
    | false =>
      obtain ⟨c', hc'⟩ := exec_withCrcAnswer hi hu c r
      rw [List.filter_cons_of_pos (by simp [hi]), execAll_cons hc']
      exact ih h c' u.response

/-- Settles O46: the two runs reach the final seal in states that differ in `crc` and the last response, which it does not
read. -/
theorem crcPrimitivesNeverDisturbThePacker : Obligations.CrcPrimitivesNeverDisturbThePacker := by
  intro is s
  obtain ⟨u, hu⟩ := execAll_completes is s
  obtain ⟨t, ht⟩ := exec_completes .pkSeal u
  obtain ⟨c, r, hfiltered⟩ := execAll_filter_withCrcAnswer hu s.crc s.response
  rw [withCrcAnswer_self] at hfiltered
  obtain ⟨c', ht'⟩ := exec_withCrcAnswer rfl ht c r
  refine ⟨t, withCrcAnswer c' t.response t, ?_, ?_, rfl, rfl, rfl, rfl, rfl, rfl⟩
  · rw [execAll_append _ _ _ hu, execAll_cons ht, execAll_nil]
  · rw [execAll_append _ _ _ hfiltered, execAll_cons ht', execAll_nil]

/-! #### Steps and reset -/

/-- Settles O59: the idle step and the reset write neither field, and an operation keeps what taking its word has left. -/
theorem stepKeepsTheInstance : Obligations.StepKeepsTheInstance := by
  intro s t h
  rcases step_cases h with ⟨hp, rfl⟩ | ⟨rest, hp, rfl⟩ | ⟨c, rest, i, hp, -, hexec⟩
  · simp [hp]
  · simp [hp]
  · obtain ⟨hpending, hwidths⟩ := exec_keeps_host hexec
    exact ⟨hwidths, by simp [hp, hpending]⟩

/-- Settles O51, from what a step is on a reset. -/
theorem resetEvent : Obligations.ResetEvent :=
  fun _ _ hp => ⟨_, _, step_reset hp, rfl, rfl, rfl, rfl, rfl, rfl, rfl, rfl, rfl, rfl, rfl, rfl, rfl, rfl⟩

/-- Settles O52: in the reset state no fault is pending, the packer is empty, so a fitting field has room and a seal has not
its 120 bits, and the CRC register holds its start value. -/
theorem firstAnswersAfterReset : Obligations.FirstAnswersAfterReset := by
  intro widths answer
  have hanswer {i : Instr} {t : State} (h : exec i (State.resetWith widths) = .next t) : answer i = t.response := by
    simp only [answer, h]
  have htrailer : trailerOf 0x00#7 = 0x01#8 := by decide
  refine ⟨rfl, fun _ => rfl, fun b => ⟨_, exec_crcBit b _, rfl⟩, fun _ => rfl, htrailer ▸ hanswer (i := .crcTrl) rfl, rfl,
    fun w v h1 h40 hv => ?_, hanswer (execPkSeal_short rfl (by simp)), fun i hi => hanswer (exec_reserved hi _)⟩
  have hroom : (State.resetWith widths).fill.toNat + w.toNat ≤ 120 := by
    rw [resetWith_fill, BitVec.toNat_ofNat]
    omega
  exact hanswer (execPkPush_accepted rfl ⟨h1, h40, hv, hroom⟩)

end Sys2Proof.Machine

/-! ### The words of the test vectors, and ENC.CSD outside its domain -/

namespace Sys2Proof.Machine

/-- The word of a well-formed operation decodes to it, the word written out. -/
theorem decode_of_encode_eq {c : CmdWord} {i : Instr} (hwf : i.wellFormed = true) (hc : encode i = c) :
    decode c = .ok i :=
  hc ▸ decode_encode hwf

/-- Settles O8: each printed word is the word of its operation, which decodes to it (O1). -/
theorem specWordsDecode : Obligations.SpecWordsDecode :=
  ⟨decode_of_encode_eq rfl rfl, decode_of_encode_eq rfl rfl, decode_of_encode_eq rfl rfl, decode_of_encode_eq rfl rfl,
    decode_of_encode_eq rfl rfl, decode_of_encode_eq rfl rfl, decode_of_encode_eq rfl rfl⟩

/-- The check of ENC.CSD passes only lists of 28: the claimed widths are `CSD_WIDTHS`, which has 28 entries (R6). -/
theorem length_of_csdOperandsOk {widths : List Nat} {fields : List CsdField}
    (h : csdOperandsOk widths fields = true) : fields.length = 28 := by
  obtain ⟨hwidths, rfl, -, -⟩ := csdOperandsOk_iff.1 h
  simpa [claimedWidths] using length_of_csdWidthsOk hwidths

/-- Settles O34: operands that pass come with a `CSD_WIDTHS` as R6 has it, and are 28. -/
theorem encCsdFaultsOutsideItsDomain : Obligations.EncCsdFaultsOutsideItsDomain := by
  intro fields s houtside
  refine execEncCsd_fault fun hok => ?_
  rcases houtside with hwidths | hlen
  · obtain ⟨hwidths', -⟩ := csdOperandsOk_iff.1 hok
    exact ne_true_of_eq_false hwidths hwidths'
  · exact hlen (length_of_csdOperandsOk hok)

end Sys2Proof.Machine
